-- ==== Sys2Proof/Word.lean ====
section
/-! DEFINITION. The word types of BITPACK: 00_scope.md R10 to R13, 30_encoding.md R60 and R67.
Every value is unsigned (R13); bit 0 is the least significant bit (R12). -/

namespace Sys2Proof

/-- One packed byte, and the 8-bit `arg` field: a pixel value or a bit depth.
R11 fixes `PIXW = DEPW = 8` (log 6, DESIGN CHOICE: safe). -/
abbrev Byte := BitVec 8

/-- A command word, `CMDW = 2 + PIXW = 10` bits: R60. -/
abbrev CmdWord := BitVec 10

/-- An output word, `OUTW = 9` bits: R67. -/
abbrev OutWord := BitVec 9

end Sys2Proof
end

