-- ==== Sys2Proof/Syntax.lean ====
section
/-! DEFINITION. The commands of BITPACK, one constructor per row of spec/opcode_table.json. -/

namespace Sys2Proof

/-- A decoded command: 30_encoding.md R61. The operand types hold exactly the 8-bit `arg` field, so
every `Instr` is well formed. The ignored operand of END and RSV is kept (log 12, DESIGN CHOICE:
safe), so that decoding loses no bit. -/
inductive Instr where
  /-- PIX: one pixel of value `p` (R62, R84). -/
  | pix (p : Byte)
  /-- START: open a request at bit depth `depth` (R63, R81). -/
  | start (depth : Byte)
  /-- END: close the request; the operand is ignored (R64, R89). -/
  | endReq (arg : Byte)
  /-- RSV, the reserved opcode: ProtocolError; the operand is ignored (R65, R92). -/
  | rsv (arg : Byte)
  deriving DecidableEq, Repr

end Sys2Proof
end

