-- ==== Sys2Proof/WellFormed.lean ====
section
/-! DEFINITION. What a host may write: the operand range of a textual line (30_encoding.md R69, R70)
and the protocol of a command sequence (70_reset_and_hazards.md R163). A single `Instr` has no
ill-formed term: its operand types are the ranges of R62 to R64. -/

namespace Sys2Proof

/-- One line of the textual form, operands still plain numbers: R69, and the pseudo-command PACK of R70. -/
inductive Line where
  /-- `PIX n` -/
  | pix (n : Nat)
  /-- `START n` -/
  | start (n : Nat)
  /-- `END` or `END n` -/
  | endReq (n : Option Nat)
  /-- `RSV n` -/
  | rsv (n : Nat)
  /-- `PACK d, [p0, ..., pn-1]`, also written `pack([p0, ..., pn-1], d)` -/
  | pack (d : Nat) (ps : List Nat)
  deriving DecidableEq, Repr

/-- An operand a word can carry: "An operand outside 0 to 255 is an assembly error, not a word" (R69). -/
def operandOk (n : Nat) : Bool := decide (n ≤ 255)

/-- Every operand of the line is in 0 to 255: R69, R70. -/
def Line.wf : Line → Bool
  | .pix n => operandOk n
  | .start n => operandOk n
  | .endReq none => true
  | .endReq (some n) => operandOk n
  | .rsv n => operandOk n
  | .pack d ps => operandOk d && ps.all operandOk

/-- The host's protocol (R163): START only outside a request, PIX and END only inside one, never
the reserved opcode. The first argument says whether a request is open; a START with an illegal
depth opens one too (R171). -/
def protocolFrom : Bool → List Instr → Bool
  | _, [] => true
  | false, .start _ :: is => protocolFrom true is
  | false, .pix _ :: _ => false
  | false, .endReq _ :: _ => false
  | true, .start _ :: _ => false
  | true, .pix _ :: is => protocolFrom true is
  | true, .endReq _ :: is => protocolFrom false is
  | _, .rsv _ :: _ => false

/-- Whether a request is still open at the end of a sequence that keeps the protocol: the last
START or END decides. -/
def leavesOpen : Bool → List Instr → Bool
  | o, [] => o
  | _, .start _ :: is => leavesOpen true is
  | _, .endReq _ :: is => leavesOpen false is
  | o, .pix _ :: is => leavesOpen o is
  | o, .rsv _ :: is => leavesOpen o is

end Sys2Proof
end

