-- ==== Sys2Proof/Decode.lean ====
section
/-! DEFINITION. The decoder and the encoder of command words, from the opcode map of
30_encoding.md R60 and R61, and the words a textual line stands for (R69, R70). -/

namespace Sys2Proof

/-- `op = cmd[9:8]`: R60. -/
def opField (w : CmdWord) : BitVec 2 := w.extractLsb' 8 2

/-- `arg = cmd[7:0]`: R60. -/
def argField (w : CmdWord) : Byte := w.extractLsb' 0 8

/-- The opcode map. "Decoding looks at `op` only; it is total" (R61); the last case is `0b11`. -/
def decode (w : CmdWord) : Instr :=
  if opField w = 0b00#2 then .pix (argField w)
  else if opField w = 0b01#2 then .start (argField w)
  else if opField w = 0b10#2 then .endReq (argField w)
  else .rsv (argField w)

/-- The opcode of a command: R61. -/
def Instr.opcode : Instr → BitVec 2
  | .pix _ => 0b00#2
  | .start _ => 0b01#2
  | .endReq _ => 0b10#2
  | .rsv _ => 0b11#2

/-- The operand field of a command: R60. -/
def Instr.arg : Instr → Byte
  | .pix p => p
  | .start depth => depth
  | .endReq arg => arg
  | .rsv arg => arg

/-- The word `{op, arg}` of a command: R60, R61. -/
def encode (i : Instr) : CmdWord := i.opcode ++ i.arg

/-- Why a bit pattern that reaches the decoder from outside the 10-bit stream is no command. -/
inductive DecodeError where
  /-- A bit above bit 9 is set: a command word has 10 bits (R60). -/
  | wordTooWide
  deriving DecidableEq, Repr

/-- The decoder on a number of any width: a number that needs more than 10 bits is rejected by
name. Log 9 (DESIGN CHOICE: safe). -/
def decodeNat (w : Nat) : Except DecodeError Instr :=
  if w < 2 ^ 10 then .ok (decode (BitVec.ofNat 10 w)) else .error .wordTooWide

/-- The instruction of a table row's word: the lowest `nbits` bits of `w` are the word and every bit
above them is zero. Log 9. -/
def decodeTableWord (nbits w : Nat) : Option Instr :=
  match decodeNat (w % 2 ^ nbits) with
  | .ok i => some i
  | .error _ => none

/-- The commands a line stands for, its operands taken to 8 bits; PACK expands to START, the pixels
and END (R70), and END without an operand is the canonical `0x200` (R64). -/
def Line.instrs : Line → List Instr
  | .pix n => [.pix (BitVec.ofNat 8 n)]
  | .start n => [.start (BitVec.ofNat 8 n)]
  | .endReq none => [.endReq 0x00#8]
  | .endReq (some n) => [.endReq (BitVec.ofNat 8 n)]
  | .rsv n => [.rsv (BitVec.ofNat 8 n)]
  | .pack d ps => .start (BitVec.ofNat 8 d) :: (ps.map fun p => .pix (BitVec.ofNat 8 p)) ++ [.endReq 0x00#8]

/-- The words a line assembles to; `none` is the assembly error of R69. -/
def assembleLine (l : Line) : Option (List CmdWord) :=
  if l.wf then some (l.instrs.map encode) else none

/-- The words of a request: `PACK d, P` of R70, for operands that are already bytes. -/
def requestWords (d : Byte) (P : List Byte) : List CmdWord :=
  encode (.start d) :: (P.map fun p => encode (.pix p)) ++ [encode (.endReq 0x00#8)]

end Sys2Proof
end

