-- ==== Sys2Proof/Config.lean ====
section
/-! DEFINITION. The values the spec leaves without a statement. Both are opaque: nothing can evaluate
them, so a claim about them holds for every value. They are read only in the states R87 says
"cannot occur" (depth 2 with `cnt >= 4`), which no run from reset reaches (R31 item 2). Log 5. -/

namespace Sys2Proof.Config

/-- `acc'` of R84 where `sh = shift_base - d*cnt` would be negative (R87: "cannot occur"), from
`acc`, `cnt` and the pixel. A free value; DESIGN CHOICE, log 5: safe. -/
opaque accPastLastSlot : Byte → BitVec 3 → Byte → Byte

/-- `cnt + 1` of R84 where `cnt` is 7 and the group is not complete, so that the sum leaves the
3-bit register. A free value; DESIGN CHOICE, log 5: safe. -/
opaque cntPastSeven : BitVec 3

end Sys2Proof.Config
end

