-- ==== Sys2Proof/Machine/State.lean ====
section
/-! DEFINITION. The state of BITPACK (10_state.md R20 to R24), the two streams and the reset input it
is driven by (20_memory.md R41, R42; 70_reset_and_hazards.md R160), and its value after reset. -/

namespace Sys2Proof.Machine

/-- The sequencing register `st`: R21. All four encodings of its two bits are used. -/
inductive St where
  /-- `0b00`: no request open. -/
  | idle
  /-- `0b01`: a request with a legal depth is open. -/
  | pack
  /-- `0b10`: a request with an illegal depth is open; its pixels are dropped. -/
  | reject
  /-- `0b11`: the host broke the protocol; nothing is done until reset. -/
  | fault
  deriving DecidableEq, Repr

/-- The two synchronous faults BITPACK raises: 60_exceptions.md R140. Raising one is a next state
(R141, R142), not the end of a run of `step`; log 4. -/
inductive Exc where
  /-- Code 1, raised by START in IDLE with an illegal depth: R141. -/
  | invalidBitDepth
  /-- Code 2, raised by a command the state does not allow and by the reserved opcode: R142. -/
  | protocolError
  deriving DecidableEq, Repr

/-- Reasons for a step to stop the machine. There is none: the spec's step is total (R80), and
both of its faults have an entry that is a next state. Safe; log 4. -/
inductive Fault where
  deriving DecidableEq, Repr

/-- Reasons for an instruction to have no meaning. -/
inductive Refusal where
  /-- Raised by an arm of `exec` whose instruction has no meaning yet; no arm raises it. Safe. -/
  | notModelled (mnemonic : String)
  deriving DecidableEq, Repr

/-- The architectural state `S = (st, mode, acc, cnt)`, 14 bits: R20. -/
structure Regs where
  /-- Sequencing register, R21. -/
  st : St
  /-- Depth of the open request, 0 for depth 1 and 1 for depth 2: R22. -/
  mode : BitVec 1
  /-- The byte under construction: R23. -/
  acc : Byte
  /-- Number of pixels already placed in `acc`: R24. -/
  cnt : BitVec 3
  deriving DecidableEq, Repr

/-- The machine: the four registers of R20, and what its hosts share with it. -/
structure State where
  /-- Sequencing register, R21. -/
  st : St
  /-- Depth of the open request: R22. -/
  mode : BitVec 1
  /-- The byte under construction: R23. -/
  acc : Byte
  /-- Number of pixels already placed in `acc`: R24. -/
  cnt : BitVec 3
  /-- The input stream, front first: words the host has offered and the block has not taken (R41; log 1). -/
  input : List CmdWord
  /-- The output stream, oldest word first: words the block has appended and the sink has not
  removed (R42; log 1). -/
  output : List OutWord
  /-- The levels the host drives on the reset input, one for each coming step, and low when the list
  is used up (R160; log 2). -/
  rst : List Bool
  deriving DecidableEq, Repr

/-- The machine right after reset: R160 for the four registers; the streams empty and `rst` low
(log 1 and log 2, DESIGN CHOICE: the hosts own them, R20). -/
def State.reset : State :=
  { st := .idle, mode := 0#1, acc := 0x00#8, cnt := 0#3, input := [], output := [], rst := [] }

end Sys2Proof.Machine
end

