-- ==== Sys2Proof/Machine/Operands.lean ====
section
/-! DEFINITION. What the operands mean and where a pixel goes: 10_state.md R22,
40_packer_commands.md R84 to R87, 30_encoding.md R67. -/

namespace Sys2Proof.Machine

/-- `d = mode + 1`: R22. -/
def depthOf (mode : BitVec 1) : Nat := mode.toNat + 1

/-- `ppb = 8 >> mode`, 8 or 4 pixels a byte: R22. -/
def ppbOf (mode : BitVec 1) : Nat := 8 >>> mode.toNat

/-- `shift_base = 8 - d`: R22. -/
def shiftBaseOf (mode : BitVec 1) : Nat := 8 - depthOf mode

/-- `map1`: 0 for the pixel 0 and 1 for every other pixel, over all 8 bits (R85). -/
def map1 (p : Byte) : BitVec 1 := if p = 0x00#8 then 0#1 else 1#1

/-- `map2`: the low two bits of the pixel (R86). -/
def map2 (p : Byte) : BitVec 2 := p.extractLsb' 0 2

/-- `zext_8(v)` of R84: the mapped pixel at the depth of the request. -/
def mapPixel (mode : BitVec 1) (p : Byte) : Byte :=
  if mode = 0#1 then (map1 p).setWidth 8 else (map2 p).setWidth 8

/-- The slot `cnt` exists at this depth. False only at depth 2 with `cnt >= 4`, which "cannot
occur" (R87). -/
def slotExists (mode : BitVec 1) (cnt : BitVec 3) : Bool := decide (cnt.toNat < ppbOf mode)

/-- `sh = shift_base - d*cnt`, for a slot that exists: R87. -/
def slotShift (mode : BitVec 1) (cnt : BitVec 3) : Nat := shiftBaseOf mode - depthOf mode * cnt.toNat

/-- `acc'` of R84: the mapped pixel OR-ed into its slot. Where there is no such slot the spec states no
byte and the value is free (log 5). -/
def insertPixel (mode : BitVec 1) (acc : Byte) (cnt : BitVec 3) (p : Byte) : Byte :=
  if slotExists mode cnt then acc ||| (mapPixel mode p <<< slotShift mode cnt)
  else Config.accPastLastSlot acc cnt p

/-- `cnt + 1` of R84 for a group that goes on. At `cnt = 7` the sum leaves the register, which no
reachable state does, and the value is free (log 5). -/
def nextCnt (cnt : BitVec 3) : BitVec 3 := if cnt = 7#3 then Config.cntPastSeven else cnt + 1#3

/-- `BYTE(b) = {0b0, b}`: R67. -/
def byteWord (b : Byte) : OutWord := 0#1 ++ b

/-- `DONE(s) = {0b1, s}`: R67. -/
def doneWord (s : Byte) : OutWord := 1#1 ++ s

/-- `kind`, bit 8 of an output word, set for DONE: R67. -/
def isDone (w : OutWord) : Bool := w.getLsbD 8

/-- `data`, bits 7:0 of an output word: R67. -/
def dataOf (w : OutWord) : Byte := w.extractLsb' 0 8

end Sys2Proof.Machine
end

