-- ==== Sys2Proof/Machine/Flags.lean ====
section
/-! DEFINITION. BITPACK has no flags or condition codes (10_state.md R27). What the host can see of the
state is the level output `status[2:0] = {mode, st}` (R28); the numbers of the two faults are in
60_exceptions.md R140. -/

namespace Sys2Proof.Machine

/-- The two bits of `st`: R21. -/
def St.bits : St → BitVec 2
  | .idle => 0b00#2
  | .pack => 0b01#2
  | .reject => 0b10#2
  | .fault => 0b11#2

/-- `status[2:0] = {mode, st}`, with no side effect on read: R28. -/
def State.status (s : State) : BitVec 3 := s.mode ++ s.st.bits

/-- The code of a fault; 0 means "no fault": R140. Only 0 and 1 appear in a DONE word (R68). -/
def Exc.code : Exc → Byte
  | .invalidBitDepth => 0x01#8
  | .protocolError => 0x02#8

/-- The status of a DONE that reports success: R68, R140. -/
def statusSuccess : Byte := 0x00#8

end Sys2Proof.Machine
end

