-- ==== Sys2Proof/Machine/Ops.lean ====
section
/-! DEFINITION. The named operations over the registers and the two streams: `Emit` and `raise` of
00_scope.md R14, fault entry and return (60_exceptions.md R141, R142, R147), the reset input
(70_reset_and_hazards.md R160), and the actions of the hosts (20_memory.md R41, R42). -/

namespace Sys2Proof.Machine

/-- The architectural state `S` of R20 inside a machine. -/
def State.regs (s : State) : Regs := { st := s.st, mode := s.mode, acc := s.acc, cnt := s.cnt }

/-- A machine in state `S` with nothing offered, nothing emitted and reset low. -/
def Regs.toState (r : Regs) : State :=
  { st := r.st, mode := r.mode, acc := r.acc, cnt := r.cnt, input := [], output := [], rst := [] }

/-- `Emit(w)`: append `w` to the output stream (R14, R42). -/
def emit (w : OutWord) (s : State) : State := { s with output := s.output ++ [w] }

/-- The value `st` takes on entry of a fault: REJECT (R141) or FAULT (R142). -/
def Exc.entry : Exc → St
  | .invalidBitDepth => .reject
  | .protocolError => .fault

/-- `raise`: the entry of a fault, one operation for both. "Entry is the two register updates of rules
R141 and R142 and nothing more" (R146): `mode` and the streams stay, and nothing is emitted. -/
def takeException (e : Exc) (s : State) : State :=
  { s with st := e.entry, acc := 0x00#8, cnt := 0#3 }

/-- The return from InvalidBitDepth: the END of a rejected request emits DONE(0x01) and goes to IDLE;
nothing is restored (R89, R147). ProtocolError has no return but reset. -/
def returnFromReject (s : State) : State :=
  { emit (doneWord Exc.invalidBitDepth.code) s with st := .idle }

/-- START with a legal depth: open a request (R81). -/
def openRequest (mode : BitVec 1) (s : State) : State :=
  { s with st := .pack, mode := mode, acc := 0x00#8, cnt := 0#3 }

/-- PIX in PACK: place one pixel and emit the byte when its group is complete (R84). -/
def placePixel (p : Byte) (s : State) : State :=
  if s.cnt.toNat = ppbOf s.mode - 1 then
    emit (byteWord (insertPixel s.mode s.acc s.cnt p)) { s with acc := 0x00#8, cnt := 0#3 }
  else
    { s with acc := insertPixel s.mode s.acc s.cnt p, cnt := nextCnt s.cnt }

/-- END in PACK, first line: the short final group, if there is one, as it stands in `acc` (R89). -/
def flushGroup (s : State) : State := if s.cnt = 0#3 then s else emit (byteWord s.acc) s

/-- END in PACK: flush, report success, go to IDLE; `mode` stays (R89). -/
def closeRequest (s : State) : State :=
  { emit (doneWord statusSuccess) (flushGroup s) with st := .idle, acc := 0x00#8, cnt := 0#3 }

/-- The level of `rst` at the next step: low when the host has driven nothing (R160; log 2). -/
def State.rstLevel (s : State) : Bool := s.rst.headD false

/-- The levels left for the steps after the next. -/
def State.nextLevel (s : State) : State := { s with rst := s.rst.tail }

/-- `rst` asserted: the four registers take their reset values; "reset emits nothing and consumes no
input word" (R160). -/
def applyReset (s : State) : State :=
  { s with st := .idle, mode := 0#1, acc := 0x00#8, cnt := 0#3 }

/-- Accept one input beat: the word at the front of the input stream, and the machine without it;
`none` when the host offers nothing (R41). -/
def takeWord (s : State) : Option (CmdWord × State) :=
  match s.input with
  | [] => none
  | w :: rest => some (w, { s with input := rest })

/-- The source host offers words: it appends them to the end of the input stream (R41). -/
def State.offer (s : State) (ws : List CmdWord) : State := { s with input := s.input ++ ws }

/-- The source host drives `rst` with these levels from the next step on (R160; log 2). -/
def State.driveRst (s : State) (levels : List Bool) : State := { s with rst := levels }

/-- The sink removes the oldest output word (R42). -/
def State.sinkTake (s : State) : Option (OutWord × State) :=
  match s.output with
  | [] => none
  | w :: rest => some (w, { s with output := rest })

end Sys2Proof.Machine
end

