-- ==== Sys2Proof/Machine/Packer.lean ====
section
/-! DEFINITION. The meanings of the four commands: 40_packer_commands.md R80 to R93, one definition
for each. Each tests `st == FAULT` first, then the state, then the operand (R80, R145). -/

namespace Sys2Proof.Machine

/-- PIX: R84, dropped in REJECT (R88) and in FAULT (R93), ProtocolError in IDLE. -/
def execPix (p : Byte) (s : State) : Host.Outcome State Fault Refusal :=
  match s.st with
  | .fault => .next s
  | .idle => .next (takeException .protocolError s)
  | .reject => .next s
  | .pack => .next (placePixel p s)

/-- START: R81. The legal depths are exactly 1 and 2, tested on the whole operand (R82). -/
def execStart (depth : Byte) (s : State) : Host.Outcome State Fault Refusal :=
  match s.st with
  | .fault => .next s
  | .pack => .next (takeException .protocolError s)
  | .reject => .next (takeException .protocolError s)
  | .idle =>
    if depth = 0x01#8 then .next (openRequest 0#1 s)
    else if depth = 0x02#8 then .next (openRequest 1#1 s)
    else .next (takeException .invalidBitDepth s)

/-- END: R89. Its operand is ignored (R64). -/
def execEndReq (_arg : Byte) (s : State) : Host.Outcome State Fault Refusal :=
  match s.st with
  | .fault => .next s
  | .idle => .next (takeException .protocolError s)
  | .pack => .next (closeRequest s)
  | .reject => .next (returnFromReject s)

/-- RSV, the reserved opcode: ProtocolError in every state but FAULT (R92, R93). -/
def execRsv (_arg : Byte) (s : State) : Host.Outcome State Fault Refusal :=
  match s.st with
  | .fault => .next s
  | .idle => .next (takeException .protocolError s)
  | .pack => .next (takeException .protocolError s)
  | .reject => .next (takeException .protocolError s)

end Sys2Proof.Machine
end

