-- ==== Sys2Proof/Machine/Dispatch.lean ====
section
/-! DEFINITION. The meaning of every command: one arm per constructor of Instr. -/

namespace Sys2Proof.Machine

def exec (i : Instr) (s : State) : Host.Outcome State Fault Refusal :=
  match i with
  | .pix p => Sys2Proof.Machine.execPix p s
  | .start depth => Sys2Proof.Machine.execStart depth s
  | .endReq arg => Sys2Proof.Machine.execEndReq arg s
  | .rsv arg => Sys2Proof.Machine.execRsv arg s

end Sys2Proof.Machine
end

