-- ==== Sys2Proof/Machine/Step.lean ====
section
/-! DEFINITION. One step: 00_scope.md R7, 40_packer_commands.md R80, 70_reset_and_hazards.md R160. -/

namespace Sys2Proof.Machine

/-- One step. Reset overrides everything (R145): with `rst` high the registers take their reset values
and no word is taken. Otherwise the word at the front of the input stream is accepted and runs
(R80). With no word offered the block is idle and `S` is unchanged (R155; log 3). -/
def step (s : State) : Host.Outcome State Fault Refusal :=
  if s.rstLevel then .next (applyReset s.nextLevel)
  else
    match takeWord s.nextLevel with
    | none => .next s.nextLevel
    | some (w, t) => exec (decode w) t

/-- The machine with one more word, `w`, at the front of the input stream, and `rst` low for the step
that takes it. This is the host's offer of a word (log 8). -/
def State.withFetchWord (s : State) (nbits w : Nat) : State :=
  { s with input := BitVec.ofNat 10 (w % 2 ^ nbits) :: s.input, rst := false :: s.rst }

end Sys2Proof.Machine
end

