-- ==== Sys2Proof/Machine/Assembler.lean ====
section
/-! DEFINITION. The textual form of commands and output words: 30_encoding.md R69 and R70. White space
between tokens, the case of mnemonics and of hexadecimal digits are the model's reading (log 11). -/

namespace Sys2Proof.Machine

/-- The text of a line before its comment, which starts at `;` (R69). -/
def stripComment : List Char → List Char
  | [] => []
  | c :: cs => if c = ';' then [] else c :: stripComment cs

/-- White space between tokens. -/
def isBlank (c : Char) : Bool := c == ' ' || c == '\t' || c == '\r'

/-- A character that is a token by itself (R70). -/
def isMark (c : Char) : Bool := c == ',' || c == '[' || c == ']' || c == '(' || c == ')'

/-- The token collected so far, if it is not empty. -/
def flushToken (cur : List Char) : List (List Char) := if cur.isEmpty then [] else [cur.reverse]

/-- The tokens of a text; `cur` is the token being collected, last character first. -/
def tokensFrom : List Char → List Char → List (List Char)
  | cur, [] => flushToken cur
  | cur, c :: cs =>
    if isBlank c then flushToken cur ++ tokensFrom [] cs
    else if isMark c then flushToken cur ++ [c] :: tokensFrom [] cs
    else tokensFrom (c :: cur) cs

/-- The value of a digit in the given base, 10 or 16. -/
def digitIn (base : Nat) (c : Char) : Option Nat :=
  let n := c.toNat
  let v := if 48 ≤ n ∧ n ≤ 57 then n - 48 else if 65 ≤ n ∧ n ≤ 70 then n - 55
    else if 97 ≤ n ∧ n ≤ 102 then n - 87 else base
  if v < base then some v else none

/-- The value of a row of digits after those already read. -/
def digitsFrom (base : Nat) : Nat → List Char → Option Nat
  | acc, [] => some acc
  | acc, c :: cs =>
    match digitIn base c with
    | some v => digitsFrom base (acc * base + v) cs
    | none => none

/-- An operand, "in decimal or `0x` hexadecimal" (R69). -/
def numberOf : List Char → Option Nat
  | [] => none
  | '0' :: 'x' :: c :: cs => digitsFrom 16 0 (c :: cs)
  | c :: cs => digitsFrom 10 0 (c :: cs)

/-- The numbers of a list after its first, up to the closing bracket, and the tokens after it. -/
def numbersTail : List (List Char) → Option (List Nat × List (List Char))
  | [']'] :: ts => some ([], ts)
  | [','] :: t :: ts =>
    match numberOf t, numbersTail ts with
    | some n, some (ns, rest) => some (n :: ns, rest)
    | _, _ => none
  | _ => none

/-- A list of numbers after its opening bracket, and the tokens after it. -/
def numbersOf : List (List Char) → Option (List Nat × List (List Char))
  | [']'] :: ts => some ([], ts)
  | t :: ts =>
    match numberOf t, numbersTail ts with
    | some n, some (ns, rest) => some (n :: ns, rest)
    | _, _ => none
  | [] => none

/-- The line a row of tokens spells: R69, and both spellings of PACK in R70. -/
def lineOfTokens : List (List Char) → Option Line
  | [['P', 'I', 'X'], t] => (numberOf t).map .pix
  | [['S', 'T', 'A', 'R', 'T'], t] => (numberOf t).map .start
  | [['E', 'N', 'D']] => some (.endReq none)
  | [['E', 'N', 'D'], t] => (numberOf t).map fun n => .endReq (some n)
  | [['R', 'S', 'V'], t] => (numberOf t).map .rsv
  | ['P', 'A', 'C', 'K'] :: t :: [','] :: ['['] :: ts =>
    match numberOf t, numbersOf ts with
    | some d, some (ps, []) => some (.pack d ps)
    | _, _ => none
  | ['p', 'a', 'c', 'k'] :: ['('] :: ['['] :: ts =>
    match numbersOf ts with
    | some (ps, [[','], t, [')']]) => (numberOf t).map fun d => .pack d ps
    | _ => none
  | _ => none

/-- What can be wrong with a textual line. -/
inductive AsmError where
  /-- The line is none of the forms of R69 and R70. -/
  | badLine
  /-- An operand lies outside 0 to 255: "an assembly error, not a word" (R69). -/
  | operandRange
  deriving DecidableEq, Repr

/-- The words of one textual line; an empty line or a bare comment has none. -/
def assembleText (text : List Char) : Except AsmError (List CmdWord) :=
  match tokensFrom [] (stripComment text) with
  | [] => .ok []
  | t :: ts =>
    match lineOfTokens (t :: ts) with
    | none => .error .badLine
    | some l =>
      match assembleLine l with
      | none => .error .operandRange
      | some ws => .ok ws

/-- One uppercase hexadecimal digit. -/
def hexDigit (n : Nat) : Char := Char.ofNat (if n < 10 then 48 + n else 55 + n)

/-- An output word as text, `BYTE 0xHH` or `DONE n`: R69. -/
def outText (w : OutWord) : String :=
  if isDone w then "DONE " ++ toString (dataOf w).toNat
  else "BYTE 0x" ++ String.ofList [hexDigit ((dataOf w).toNat / 16), hexDigit ((dataOf w).toNat % 16)]

end Sys2Proof.Machine
end

