-- ==== Sys2Proof/Machine/Pack.lean ====
section
/-! DEFINITION. The whole-grid function `pack`, its inverse `unpack`, and what a request must emit:
41_pack_function.md R100 to R102, R107 and R112. Plain mathematics on sequences; no step uses it. -/

namespace Sys2Proof.Machine

/-- `map_d`: the per-pixel mapping of R101, for depths 1 and 2. At another depth, which R101 does not define, it
is `map_2`; `pack` and `unpack` never use it there (DESIGN CHOICE, log 14: safe). -/
def mapDepth (d p : Nat) : Nat := if d = 1 then (if p = 0 then 0 else 1) else p % 4

/-- The sum of R102 over the pixels of a group, the first of them in slot `j`. -/
def groupSum (d : Nat) : Nat → List Nat → Nat
  | _, [] => 0
  | j, g :: gs => mapDepth d g * 2 ^ (8 - d * (j + 1)) + groupSum d (j + 1) gs

/-- `byte_d(G)`: R102, for depths 1 and 2 and at most `ppb` pixels; elsewhere log 14. -/
def groupByte (d : Nat) (G : List Nat) : Byte := BitVec.ofNat 8 (groupSum d 0 G)

/-- `ppb = 8 / d`: R100, for depths 1 and 2; elsewhere log 14. -/
def ppbAt (d : Nat) : Nat := 8 / d

/-- `N = ceil(n / ppb)`: R100. -/
def byteCount (d n : Nat) : Nat := (n + (ppbAt d - 1)) / ppbAt d

/-- Group `k` of a grid: the pixels with index in `k*ppb .. min((k+1)*ppb, n) - 1` (R100). -/
def groupAt (d : Nat) (P : List Nat) (k : Nat) : List Nat := (P.drop (k * ppbAt d)).take (ppbAt d)

/-- The bytes of a grid at a legal depth: R100. `pack` calls it at no other depth (log 14). -/
def packBytes (d : Nat) (P : List Nat) : List Byte :=
  (List.range (byteCount d P.length)).map fun k => groupByte d (groupAt d P k)

/-- `pack(P, d)`: R100. The depth is tested before anything else. -/
def pack (P : List Nat) (d : Nat) : Except Exc (List Byte) :=
  if d = 1 ∨ d = 2 then .ok (packBytes d P) else .error .invalidBitDepth

/-- `unpack(B, d, i)`: R107, for `d` in 1 and 2 and `i` a pixel index of `B`. Where R107 defines nothing, at
every other depth and at every other index, it answers `none` (DESIGN CHOICE, log 13: safe). -/
def unpack (B : List Byte) (d i : Nat) : Option Nat :=
  if d = 1 ∨ d = 2 then
    (B[i / ppbAt d]?).map fun b => (b.toNat >>> ((8 - d) - d * (i % ppbAt d))) &&& (2 ^ d - 1)
  else none

/-- The words a request must emit: the bytes of `pack` and DONE(0), or DONE(1) alone (R112). -/
def requestOutput (d : Byte) (P : List Byte) : List OutWord :=
  match pack (P.map BitVec.toNat) d.toNat with
  | .ok bytes => bytes.map byteWord ++ [doneWord statusSuccess]
  | .error e => [doneWord e.code]

/-- `mode` after a request: `d - 1` for a legal depth, otherwise unchanged (R112). -/
def requestMode (d : Byte) (mode : BitVec 1) : BitVec 1 :=
  if d = 1#8 then 0#1 else if d = 2#8 then 1#1 else mode

end Sys2Proof.Machine
end

