-- ==== Sys2Proof/Machine/StateTable.lean ====
section
/-! DEFINITION. The complete next-state and output table of 40_packer_commands.md R94 as data, row by
row as the spec prints it. `exec` does not use it: a statement says that the two agree. -/

namespace Sys2Proof.Machine

/-- The third column of R94. -/
inductive TableCond where
  | any
  | argIs (depth : Byte)
  | argIllegal
  | groupGoesOn
  | groupCompletes
  | cntNonzero
  | cntZero
  deriving DecidableEq, Repr

/-- The column "other writes" of R94, all in one name. -/
inductive TableWrites where
  /-- none -/
  | nothing
  /-- `acc <- 0`, `cnt <- 0` -/
  | clear
  /-- `mode <- m`, `acc <- 0`, `cnt <- 0` -/
  | clearAtMode (m : BitVec 1)
  /-- `acc <- acc'`, `cnt <- cnt + 1` -/
  | place
  deriving DecidableEq, Repr

/-- A word of the column "output" of R94. -/
inductive TableOut where
  /-- `BYTE(acc')` -/
  | bytePlaced
  /-- `BYTE(acc)` -/
  | byteAcc
  /-- `DONE(s)` -/
  | done (s : Byte)
  deriving DecidableEq, Repr

/-- One row of R94; `op = none` is the "any" of its last row. -/
structure TableRow where
  before : St
  op : Option (BitVec 2)
  cond : TableCond
  after : St
  writes : TableWrites
  out : List TableOut
  deriving DecidableEq, Repr

/-- The rows for `st == IDLE`. -/
def rowsIdle : List TableRow :=
  [⟨.idle, some 0b01#2, .argIs 1#8, .pack, .clearAtMode 0#1, []⟩,
   ⟨.idle, some 0b01#2, .argIs 2#8, .pack, .clearAtMode 1#1, []⟩,
   ⟨.idle, some 0b01#2, .argIllegal, .reject, .clear, []⟩,
   ⟨.idle, some 0b00#2, .any, .fault, .clear, []⟩,
   ⟨.idle, some 0b10#2, .any, .fault, .clear, []⟩,
   ⟨.idle, some 0b11#2, .any, .fault, .clear, []⟩]

/-- The rows for `st == PACK`. -/
def rowsPack : List TableRow :=
  [⟨.pack, some 0b00#2, .groupGoesOn, .pack, .place, []⟩,
   ⟨.pack, some 0b00#2, .groupCompletes, .pack, .clear, [.bytePlaced]⟩,
   ⟨.pack, some 0b10#2, .cntNonzero, .idle, .clear, [.byteAcc, .done 0x00#8]⟩,
   ⟨.pack, some 0b10#2, .cntZero, .idle, .clear, [.done 0x00#8]⟩,
   ⟨.pack, some 0b01#2, .any, .fault, .clear, []⟩,
   ⟨.pack, some 0b11#2, .any, .fault, .clear, []⟩]

/-- The rows for `st == REJECT` and the one row for `st == FAULT`. -/
def rowsRejectFault : List TableRow :=
  [⟨.reject, some 0b00#2, .any, .reject, .nothing, []⟩,
   ⟨.reject, some 0b10#2, .any, .idle, .nothing, [.done 0x01#8]⟩,
   ⟨.reject, some 0b01#2, .any, .fault, .clear, []⟩,
   ⟨.reject, some 0b11#2, .any, .fault, .clear, []⟩,
   ⟨.fault, none, .any, .fault, .nothing, []⟩]

/-- The table of R94. -/
def stateTable : List TableRow := rowsIdle ++ rowsPack ++ rowsRejectFault

/-- The condition column holds for this operand and state. -/
def TableCond.holds (r : Regs) (arg : Byte) : TableCond → Bool
  | .any => true
  | .argIs depth => decide (arg = depth)
  | .argIllegal => decide (arg ≠ 1#8 ∧ arg ≠ 2#8)
  | .groupGoesOn => decide (r.cnt.toNat < ppbOf r.mode - 1)
  | .groupCompletes => decide (r.cnt.toNat = ppbOf r.mode - 1)
  | .cntNonzero => decide (r.cnt ≠ 0#3)
  | .cntZero => decide (r.cnt = 0#3)

/-- The row is the one for this state and command. -/
def TableRow.applies (row : TableRow) (r : Regs) (i : Instr) : Bool :=
  decide (row.before = r.st) && (row.op.isNone || row.op == some i.opcode) && row.cond.holds r i.arg

/-- `acc'` of R84, written out with the numbers of R22 and R85 to R87. -/
def tableAcc (r : Regs) (p : Byte) : Byte :=
  if r.mode = 0#1 then r.acc ||| ((if p = 0x00#8 then 0x00#8 else 0x01#8) <<< (7 - r.cnt.toNat))
  else r.acc ||| ((p &&& 0x03#8) <<< (6 - 2 * r.cnt.toNat))

/-- The registers after the row. -/
def TableRow.regsAfter (row : TableRow) (r : Regs) (p : Byte) : Regs :=
  match row.writes with
  | .nothing => { r with st := row.after }
  | .clear => { r with st := row.after, acc := 0x00#8, cnt := 0#3 }
  | .clearAtMode m => { st := row.after, mode := m, acc := 0x00#8, cnt := 0#3 }
  | .place => { r with st := row.after, acc := tableAcc r p, cnt := r.cnt + 1#3 }

/-- A word of the output column. -/
def TableOut.word (r : Regs) (p : Byte) : TableOut → OutWord
  | .bytePlaced => byteWord (tableAcc r p)
  | .byteAcc => byteWord r.acc
  | .done s => doneWord s

/-- The machine after the row: the registers it writes and the words it emits, in order. -/
def TableRow.run (row : TableRow) (i : Instr) (s : State) : State :=
  let r' := row.regsAfter s.regs i.arg
  { s with
    st := r'.st, mode := r'.mode, acc := r'.acc, cnt := r'.cnt,
    output := s.output ++ row.out.map (TableOut.word s.regs i.arg) }

end Sys2Proof.Machine
end

