-- ==== Sys2Proof/Machine/Function.lean ====
section
/-! DEFINITION. The machine as functions on `S` alone: 00_scope.md R16, with the same meanings `exec`
gives. -/

namespace Sys2Proof.Machine

/-- `step : S -> Cmd -> S * List Out` of R16: the command runs on a machine with empty streams, and what
it appended is the step's output. The last two cases do not arise, since `exec` is total (R80). -/
def stepS (r : Regs) (w : CmdWord) : Regs × List OutWord :=
  match exec (decode w) r.toState with
  | .next t => (t.regs, t.output)
  | .fault _ => (r, [])
  | .refused _ => (r, [])

/-- `run : S -> List Cmd -> S * List Out` of R16: fold `stepS` and concatenate the outputs. -/
def runS : Regs → List CmdWord → Regs × List OutWord
  | r, [] => (r, [])
  | r, w :: ws =>
    let now := stepS r w
    let later := runS now.1 ws
    (later.1, now.2 ++ later.2)

/-- `S0 = (IDLE, 0, 0x00, 0)`: R160. -/
def resetS : Regs := { st := .idle, mode := 0#1, acc := 0x00#8, cnt := 0#3 }

end Sys2Proof.Machine
end

