-- ==== Sys2Proof/Safety.lean ====
section
/-! DEFINITION. The terms claims use: the invariants of 10_state.md R31, the end of a run of
70_reset_and_hazards.md R172, and runs of the machine. -/

namespace Sys2Proof.Machine

/-- R31 items 1 to 3: outside PACK nothing is pending; in PACK the slot index is one of the group's and
every slot not yet filled is zero. -/
abbrev State.Inv (s : State) : Prop :=
  (s.st ≠ .pack → s.acc = 0x00#8 ∧ s.cnt = 0#3) ∧
  (s.st = .pack → s.cnt.toNat ≤ ppbOf s.mode - 1 ∧
    ∀ k, k < 8 - depthOf s.mode * s.cnt.toNat → s.acc.getLsbD k = false)

/-- `rst` is low at each of the next `k` steps. -/
abbrev State.Quiet (s : State) (k : Nat) : Prop := ∀ b ∈ s.rst.take k, b = false

/-- "A run of a model is finished when the input stream is empty and `st == IDLE`" (R172). -/
abbrev State.Finished (s : State) : Prop := s.input = [] ∧ s.st = .idle

/-- A run that stopped inside a request, stuck for want of an END: never final (R91, R172). -/
abbrev State.Unfinished (s : State) : Prop := s.input = [] ∧ (s.st = .pack ∨ s.st = .reject)

/-- A faulted run: never final (R142, R172). -/
abbrev State.Faulted (s : State) : Prop := s.st = .fault

/-- `k` steps of the machine, stopping where a step stops: `Host.Core.run` of `core`, written over
`State` itself (`core_run_eq_runSteps` in Laws/Runs.lean). -/
def runSteps : Nat → State → Host.Outcome State Fault Refusal
  | 0, s => .next s
  | k + 1, s =>
    match step s with
    | .next t => runSteps k t
    | .fault r => .fault r
    | .refused r => .refused r

/-- The packed bytes an output stream carries: the data of its BYTE words (R42, D7). -/
def bytesOf (out : List OutWord) : List Byte := (out.filter fun w => !isDone w).map dataOf

end Sys2Proof.Machine
end

