-- ==== Sys2Proof/Certificates/Slice0/Obligations.lean ====
section
/-! DEFINITION. The statements about BITPACK, from the numbered rules of spec/. -/

open Sys2Proof Sys2Proof.Machine

/-! ## Encoding -/

/-- 30_encoding.md R60, R61: decoding and encoding are inverse to each other, on every command and
on every 10-bit word. On the words of END and RSV this rests on the model's choice of log 12, that a decoded
command keeps its ignored operand; R64 gives all 256 operands the same END. -/
def Obligations.DecodeAndEncodeAgree : Prop :=
  (∀ i : Instr, decode (encode i) = i) ∧ (∀ w : CmdWord, encode (decode w) = w)

/-- R61: "A word `w` is command `M` when `(w & mask_M) == match_M`", for the four rows, with
`arg = cmd[7:0]` as the operand (R60). That a decoded END or RSV keeps its ignored operand is the model's choice
of log 12; R64 gives all 256 operands the same END. -/
def Obligations.DecodeFollowsTheOpcodeMap : Prop :=
  ∀ w : CmdWord,
    (w &&& 0x300#10 = 0x000#10 → decode w = .pix (w.setWidth 8)) ∧
    (w &&& 0x300#10 = 0x100#10 → decode w = .start (w.setWidth 8)) ∧
    (w &&& 0x300#10 = 0x200#10 → decode w = .endReq (w.setWidth 8)) ∧
    (w &&& 0x300#10 = 0x300#10 → decode w = .rsv (w.setWidth 8))

/-- Words written out from the encodings of R61 and the examples of R69 decode to their commands. That END and
RSV keep their ignored operand is the model's choice of log 12. -/
def Obligations.WrittenWordsDecode : Prop :=
  decode 0b0011111111#10 = .pix 255#8 ∧ decode 0b0000000000#10 = .pix 0#8 ∧
  decode 0b0100000001#10 = .start 1#8 ∧ decode 0b0111111111#10 = .start 255#8 ∧
  decode 0b1000000000#10 = .endReq 0#8 ∧ decode 0b1010101011#10 = .endReq 0xAB#8 ∧
  decode 0b1100000000#10 = .rsv 0#8 ∧ decode 0b1111111111#10 = .rsv 255#8

/-- The model's choice of log 9: a number in a field of 10 or more bits reaches the decoder whole, and one that
needs more than 10 bits is refused. -/
def Obligations.TableWordsReachTheDecoder : Prop :=
  ∀ nbits w : Nat, 10 ≤ nbits →
    (w < 1024 → decodeTableWord nbits w = some (decode (BitVec.ofNat 10 w))) ∧
    (1024 ≤ w → w < 2 ^ nbits → decodeTableWord nbits w = none)

/-- R69 and R70: the words each textual line assembles to, and the assembly error of an operand
outside 0 to 255. -/
def Obligations.LinesAssembleToTheirWords : Prop :=
  (∀ n : Nat, n ≤ 255 →
    assembleLine (.pix n) = some [BitVec.ofNat 10 (0x000 ||| n)] ∧
    assembleLine (.start n) = some [BitVec.ofNat 10 (0x100 ||| n)] ∧
    assembleLine (.endReq (some n)) = some [BitVec.ofNat 10 (0x200 ||| n)] ∧
    assembleLine (.rsv n) = some [BitVec.ofNat 10 (0x300 ||| n)]) ∧
  assembleLine (.endReq none) = some [0x200#10] ∧
  (∀ n : Nat, 255 < n →
    assembleLine (.pix n) = none ∧ assembleLine (.start n) = none ∧
    assembleLine (.endReq (some n)) = none ∧ assembleLine (.rsv n) = none) ∧
  (∀ (d : Nat) (ps : List Nat),
    ((d ≤ 255 ∧ ∀ p ∈ ps, p ≤ 255) →
      assembleLine (.pack d ps) =
        some (BitVec.ofNat 10 (0x100 ||| d) :: ps.map (fun p => BitVec.ofNat 10 p) ++ [0x200#10])) ∧
    ((255 < d ∨ ∃ p ∈ ps, 255 < p) → assembleLine (.pack d ps) = none))

/-! ## A step, reset and the status output -/

/-- R80, R41: with `rst` low, a step takes the word at the front of the input stream and runs the
command it decodes to; in particular the command `i` where the word is `encode i`. -/
def Obligations.StepRunsTheDecodedFrontWord : Prop :=
  (∀ (s : State) (w : CmdWord) (rest : List CmdWord), s.rstLevel = false → s.input = w :: rest →
    step s = exec (decode w) { s with input := rest, rst := s.rst.tail }) ∧
  (∀ (s : State) (i : Instr) (rest : List CmdWord), s.rstLevel = false → s.input = encode i :: rest →
    step s = exec i { s with input := rest, rst := s.rst.tail })

/-- The host's offer of one word (log 8) is what the next step runs, on the state as it stands. -/
def Obligations.OfferedTableWordRunsNext : Prop :=
  ∀ (s : State) (nbits w : Nat), 10 ≤ nbits → w < 1024 →
    step (s.withFetchWord nbits w) = exec (decode (BitVec.ofNat 10 w)) s

/-- 70_reset_and_hazards.md R160 for the four registers and the status output. -/
def Obligations.ResetStateIsS0 : Prop :=
  State.reset.st = .idle ∧ State.reset.mode = 0#1 ∧ State.reset.acc = 0x00#8 ∧
  State.reset.cnt = 0#3 ∧ State.reset.status = 0b000#3

/-- R160, R161, R145: while `rst` is high the registers take their reset values whatever word is
offered, no input word is consumed, and nothing is emitted or withdrawn. How the host drives
`rst` is the model's choice of log 2. -/
def Obligations.ResetOverridesTheOfferedWord : Prop :=
  ∀ s : State, s.rstLevel = true →
    step s = .next { s with
      st := .idle, mode := 0#1, acc := 0x00#8, cnt := 0#3, rst := s.rst.tail }

/-- 60_exceptions.md R155: with no word offered `S` and the streams stay. That this is a step that
answers a next state is the model's reading (log 3). -/
def Obligations.IdleWithoutAnOfferedWord : Prop :=
  ∀ s : State, s.rstLevel = false → s.input = [] → step s = .next { s with rst := s.rst.tail }

/-- 10_state.md R28: `status[2] = mode` and `status[1:0]` is the encoding of `st` of R21. -/
def Obligations.StatusShowsModeAndSt : Prop :=
  ∀ s : State,
    s.status.extractLsb' 2 1 = s.mode ∧
    (s.st = .idle ↔ s.status.extractLsb' 0 2 = 0b00#2) ∧
    (s.st = .pack ↔ s.status.extractLsb' 0 2 = 0b01#2) ∧
    (s.st = .reject ↔ s.status.extractLsb' 0 2 = 0b10#2) ∧
    (s.st = .fault ↔ s.status.extractLsb' 0 2 = 0b11#2)

/-- R80: the step is total, on every state and every command. R80 says so of a state and a word. That neither
fault is the fault outcome is the model's reading of log 4, and that a step with no word offered answers a
next state is its reading of log 3. -/
def Obligations.EveryStepAnswersANextState : Prop :=
  (∀ (i : Instr) (s : State), ∃ t, exec i s = .next t) ∧ (∀ s : State, ∃ t, step s = .next t)

/-! ## The four commands -/

/-- 40_packer_commands.md R81, with the entries of R141 and R142: the words of START, and what it does in each state. Each clause
gives the whole next state, so it is also the frame. -/
def Obligations.StartOpensOrRejectsARequest : Prop :=
  ∀ (depth : Byte) (s : State),
    (encode (.start depth)).toNat = 0x100 + depth.toNat ∧
    (s.st = .idle → depth = 1#8 →
      exec (.start depth) s = .next { s with st := .pack, mode := 0#1, acc := 0x00#8, cnt := 0#3 }) ∧
    (s.st = .idle → depth = 2#8 →
      exec (.start depth) s = .next { s with st := .pack, mode := 1#1, acc := 0x00#8, cnt := 0#3 }) ∧
    (s.st = .idle → depth ≠ 1#8 → depth ≠ 2#8 →
      exec (.start depth) s = .next { s with st := .reject, acc := 0x00#8, cnt := 0#3 }) ∧
    (s.st = .pack ∨ s.st = .reject →
      exec (.start depth) s = .next { s with st := .fault, acc := 0x00#8, cnt := 0#3 })

/-- R84 to R88: the words of PIX, and what it does in each state, with the numbers of R22, R85, R86 and R87 written out.
The slot must exist (`cnt <= ppb - 1`, R31 item 2); `PixWithoutASlotStillRuns` covers the rest. -/
def Obligations.PixPlacesThePixelOrEmitsTheByte : Prop :=
  ∀ (p : Byte) (s : State),
    (encode (.pix p)).toNat = p.toNat ∧
    (s.st = .idle → exec (.pix p) s = .next { s with st := .fault, acc := 0x00#8, cnt := 0#3 }) ∧
    (s.st = .reject → exec (.pix p) s = .next s) ∧
    (∀ (d ppb : Nat) (v acc' : Byte), s.st = .pack →
      d = s.mode.toNat + 1 → ppb = 8 >>> s.mode.toNat →
      v = (if s.mode = 0#1 then (if p = 0#8 then 0#8 else 1#8) else p &&& 3#8) →
      acc' = s.acc ||| (v <<< ((8 - d) - d * s.cnt.toNat)) →
      (s.cnt.toNat = ppb - 1 →
        exec (.pix p) s = .next { s with
          acc := 0x00#8, cnt := 0#3, output := s.output ++ [byteWord acc'] }) ∧
      (s.cnt.toNat < ppb - 1 →
        exec (.pix p) s = .next { s with acc := acc', cnt := s.cnt + 1#3 }))

/-- In the states R87 says cannot occur (no slot `cnt` at this depth) PIX still runs and writes only
`acc` and `cnt`; the byte is a free value, and so is `cnt` where 8 would not fit (log 5). -/
def Obligations.PixWithoutASlotStillRuns : Prop :=
  ∀ (p : Byte) (s : State), s.st = .pack → 8 >>> s.mode.toNat ≤ s.cnt.toNat →
    ∃ (a : Byte) (c : BitVec 3), (s.cnt ≠ 7#3 → c = s.cnt + 1#3) ∧
      exec (.pix p) s = .next { s with acc := a, cnt := c }

/-- R89, with the entry of R142: the words of END, and what it does in each state, for every operand (R64). -/
def Obligations.EndFlushesAndReports : Prop :=
  ∀ (arg : Byte) (s : State),
    (encode (.endReq arg)).toNat = 0x200 + arg.toNat ∧
    (s.st = .idle →
      exec (.endReq arg) s = .next { s with st := .fault, acc := 0x00#8, cnt := 0#3 }) ∧
    (s.st = .pack → s.cnt ≠ 0#3 →
      exec (.endReq arg) s = .next { s with
        st := .idle, acc := 0x00#8, cnt := 0#3,
        output := s.output ++ [byteWord s.acc, doneWord 0x00#8] }) ∧
    (s.st = .pack → s.cnt = 0#3 →
      exec (.endReq arg) s = .next { s with
        st := .idle, acc := 0x00#8, cnt := 0#3, output := s.output ++ [doneWord 0x00#8] }) ∧
    (s.st = .reject →
      exec (.endReq arg) s = .next { s with st := .idle, output := s.output ++ [doneWord 0x01#8] })

/-- R92, with the entry of R142: the words of the reserved opcode, and what it does in every state but FAULT, for
every operand. -/
def Obligations.ReservedOpcodeRaisesProtocolError : Prop :=
  ∀ (arg : Byte) (s : State),
    (encode (.rsv arg)).toNat = 0x300 + arg.toNat ∧
    (s.st ≠ .fault →
      exec (.rsv arg) s = .next { s with st := .fault, acc := 0x00#8, cnt := 0#3 })

/-- R93: in FAULT every command is accepted and dropped. -/
def Obligations.FaultDropsEveryCommand : Prop :=
  ∀ (i : Instr) (s : State), s.st = .fault → exec i s = .next s

/-- R67: the numbers of the two output words, `b` for BYTE and `0x100 + s` for DONE. -/
def Obligations.OutputWordsHaveTheirNumbers : Prop :=
  ∀ b : Byte, (byteWord b).toNat = b.toNat ∧ (doneWord b).toNat = 0x100 + b.toNat ∧
    isDone (byteWord b) = false ∧ isDone (doneWord b) = true ∧
    dataOf (byteWord b) = b ∧ dataOf (doneWord b) = b

/-- R23, R43, R44: the byte PIX builds, bit by bit. Slot `cnt` holds the mapped pixel in natural bit order, the
slots above it are as they were, and every bit below it is zero. -/
def Obligations.PixFillsExactlyItsSlot : Prop :=
  ∀ (p : Byte) (s t : State) (d : Nat), s.Inv → s.st = .pack → d = s.mode.toNat + 1 →
    exec (.pix p) s = .next t →
    ∃ b : Byte,
      ((s.cnt.toNat < 8 >>> s.mode.toNat - 1 ∧ t.acc = b ∧ t.output = s.output) ∨
        (s.cnt.toNat = 8 >>> s.mode.toNat - 1 ∧ t.acc = 0x00#8 ∧
          t.output = s.output ++ [byteWord b])) ∧
      ∀ k, k < 8 → b.getLsbD k =
        if 8 - d * s.cnt.toNat ≤ k then s.acc.getLsbD k
        else if 8 - d * (s.cnt.toNat + 1) ≤ k then
          (if d = 1 then decide (p ≠ 0#8) else p.getLsbD (k - (8 - d * (s.cnt.toNat + 1))))
        else false

/-! ## The whole machine -/

/-- The frame of every command: no command touches the offered words or `rst`, none withdraws an output
word, only START writes `mode` (R22), PIX in PACK or REJECT keeps `st` (R84), PIX and END in REJECT keep
`acc` and `cnt` (R88, R89), START and RSV emit nothing (R95). -/
def Obligations.CommandsLeaveTheRestUnchanged : Prop :=
  ∀ (i : Instr) (s t : State), exec i s = .next t →
    t.input = s.input ∧ t.rst = s.rst ∧ (∃ ws, t.output = s.output ++ ws) ∧
    (∀ p, i = .pix p → t.mode = s.mode ∧ (s.st = .pack ∨ s.st = .reject → t.st = s.st) ∧
      (s.st = .reject → t = s)) ∧
    (∀ depth, i = .start depth → t.output = s.output) ∧
    (∀ arg, i = .endReq arg → t.mode = s.mode ∧
      (s.st = .reject → t.acc = s.acc ∧ t.cnt = s.cnt)) ∧
    (∀ arg, i = .rsv arg → t.mode = s.mode ∧ t.output = s.output)

/-- R68, R90, R95: what a command can append. At most two words, two only for END in PACK with `cnt != 0`;
one DONE, the last word, from END alone, with status 0 or 1. -/
def Obligations.EmittedWordsOfEachCommand : Prop :=
  ∀ (i : Instr) (s t : State), exec i s = .next t →
    ∃ ws : List OutWord, t.output = s.output ++ ws ∧ ws.length ≤ 2 ∧
      (ws.length = 2 ↔ (∃ arg, i = .endReq arg) ∧ s.st = .pack ∧ s.cnt ≠ 0#3) ∧
      (∀ w ∈ ws, isDone w = true → (∃ arg, i = .endReq arg) ∧
        ws.getLast? = some w ∧ ws.countP isDone = 1 ∧
        ((w = doneWord 0x00#8 ∧ s.st = .pack) ∨ (w = doneWord 0x01#8 ∧ s.st = .reject))) ∧
      ((∃ arg, i = .endReq arg) → s.st = .pack ∨ s.st = .reject → ws.any isDone = true)

/-- 10_state.md R31 items 1 to 3 after reset. -/
def Obligations.InvariantHoldsAtReset : Prop := State.reset.Inv

/-- R31 items 1 to 3 after every step, from every state that has them. -/
def Obligations.InvariantKeptByEveryStep : Prop :=
  ∀ s t : State, s.Inv → step s = .next t → t.Inv

/-- R31 item 4, R93, R160: FAULT is absorbing for every number of steps without reset. The words are
consumed and nothing else changes. -/
def Obligations.FaultAbsorbsUntilReset : Prop :=
  ∀ (k : Nat) (s : State), s.st = .fault → s.Quiet k →
    runSteps k s = .next { s with input := s.input.drop k, rst := s.rst.drop k }

/-- R22: `mode` is written by reset and by a START in IDLE whose depth is 1 or 2, and by nothing
else. -/
def Obligations.ModeWrittenOnlyByLegalStartOrReset : Prop :=
  ∀ s t : State, step s = .next t → t.mode ≠ s.mode →
    (s.rstLevel = true ∧ t.mode = 0#1) ∨
    (∃ (depth : Byte) (rest : List CmdWord), s.rstLevel = false ∧
      s.input = encode (.start depth) :: rest ∧ s.st = .idle ∧ t.st = .pack ∧
      ((depth = 1#8 ∧ t.mode = 0#1) ∨ (depth = 2#8 ∧ t.mode = 1#1)))

/-- R80: the outcome is a function of `(S, cmd)` alone. Two machines with the same four registers go to the
same registers and append the same words, whatever else they hold. -/
def Obligations.OutcomeDependsOnBlockStateAlone : Prop :=
  ∀ (i : Instr) (s₁ s₂ t₁ t₂ : State), s₁.regs = s₂.regs →
    exec i s₁ = .next t₁ → exec i s₂ = .next t₂ →
    t₁.regs = t₂.regs ∧ ∃ ws, t₁.output = s₁.output ++ ws ∧ t₂.output = s₂.output ++ ws

/-- 20_memory.md R42: BITPACK never reads the output stream. More words in front of it change nothing,
over any number of steps. -/
def Obligations.OutputStreamIsNeverRead : Prop :=
  ∀ (k : Nat) (s t : State) (out : List OutWord), runSteps k s = .next t →
    runSteps k { s with output := out ++ s.output } = .next { t with output := out ++ t.output }

/-- R51: "later input never changes earlier output". While words are left, offering more at the end of the
input stream commutes with running. -/
def Obligations.LaterInputNeverChangesEarlierOutput : Prop :=
  ∀ (k : Nat) (s t : State) (more : List CmdWord), k ≤ s.input.length →
    runSteps k s = .next t → runSteps k (s.offer more) = .next (t.offer more)

/-- 00_scope.md R16: `run` folds `step` and concatenates the outputs, and the machine with those words
offered does the same. -/
def Obligations.MachineRunsTheFoldOfStep : Prop :=
  ∀ (ws rest : List CmdWord) (s : State), s.input = ws ++ rest → s.Quiet ws.length →
    runSteps ws.length s = .next { s with
      st := (runS s.regs ws).1.st, mode := (runS s.regs ws).1.mode,
      acc := (runS s.regs ws).1.acc, cnt := (runS s.regs ws).1.cnt,
      input := rest, output := s.output ++ (runS s.regs ws).2, rst := s.rst.drop ws.length }

/-- 70_reset_and_hazards.md R163, R171, R172: from IDLE, a run over a command sequence faults exactly when the
sequence breaks the protocol, and a sequence that keeps it ends in IDLE exactly when every request it
opens is closed. -/
def Obligations.ProtocolDecidesFaultAndFinish : Prop :=
  ∀ (ws rest : List CmdWord) (s : State), s.st = .idle → s.input = ws ++ rest →
    s.Quiet ws.length →
    ∃ t, runSteps ws.length s = .next t ∧ t.input = rest ∧
      (t.Faulted ↔ protocolFrom false (ws.map decode) = false) ∧
      (protocolFrom false (ws.map decode) = true →
        (t.st = .idle ↔ leavesOpen false (ws.map decode) = false))

/-- 40_packer_commands.md R94: in every state with an existing slot exactly one row of the table applies
to each command, and the command does what the row says. -/
def Obligations.ExecIsTheStateTable : Prop :=
  ∀ (i : Instr) (s : State), (s.st = .pack → s.cnt.toNat ≤ ppbOf s.mode - 1) →
    ∃ row ∈ stateTable, row.applies s.regs i = true ∧
      (∀ row' ∈ stateTable, row'.applies s.regs i = true → row' = row) ∧
      exec i s = .next (row.run i s)

/-- R91: a request that is never closed never completes. Over pixels alone, and with nothing more offered
however long the block waits, `st` stays PACK, no DONE appears and the run is not finished. -/
def Obligations.UnclosedRequestNeverCompletes : Prop :=
  ∀ (k : Nat) (P : List Byte) (s : State), s.st = .pack →
    s.input = P.map (fun p => encode (.pix p)) → s.Quiet k →
    ∃ t, runSteps k s = .next t ∧ t.st = .pack ∧ ¬ t.Finished ∧
      ∃ ws, t.output = s.output ++ ws ∧ ∀ w ∈ ws, isDone w = false

/-! ## The function `pack` -/

/-- 41_pack_function.md R112: `run` on a request emits exactly the bytes of `pack` and DONE(0), or DONE(1)
alone for an illegal depth, and ends in IDLE; with the loop invariant after START and the first `i`
pixels. -/
def Obligations.RunOfARequestEmitsPack : Prop :=
  ∀ (d : Byte) (P : List Byte) (r : Regs), r.st = .idle →
    (∀ B : List Byte, pack (P.map BitVec.toNat) d.toNat = .ok B →
      runS r (requestWords d P) =
        (⟨.idle, BitVec.ofNat 1 (d.toNat - 1), 0x00#8, 0#3⟩,
          B.map byteWord ++ [doneWord 0x00#8]) ∧
      ∀ (i ppb : Nat), i ≤ P.length → ppb = 8 / d.toNat →
        runS r (encode (.start d) :: (P.take i).map (fun p => encode (.pix p))) =
          (⟨.pack, BitVec.ofNat 1 (d.toNat - 1),
            groupByte d.toNat (((P.take i).drop (i - i % ppb)).map BitVec.toNat),
            BitVec.ofNat 3 (i % ppb)⟩,
            (B.take (i / ppb)).map byteWord)) ∧
    (d ≠ 1#8 → d ≠ 2#8 →
      runS r (requestWords d P) = (⟨.idle, r.mode, 0x00#8, 0#3⟩, [doneWord 0x01#8]))

/-- R112 on the machine, for any number of requests one after another (R30, R51, R90): each request emits what
it emits on its own, in order, whatever the others were. -/
def Obligations.BatchOfRequestsEmitsEachPack : Prop :=
  ∀ (reqs : List (Byte × List Byte)) (rest : List CmdWord) (s : State) (n : Nat),
    s.Inv → s.st = .idle →
    s.input = reqs.flatMap (fun q => requestWords q.1 q.2) ++ rest →
    n = (reqs.map fun q => q.2.length + 2).sum → s.Quiet n →
    runSteps n s = .next { s with
      mode := reqs.foldl (fun m q => requestMode q.1 m) s.mode,
      input := rest,
      output := s.output ++ reqs.flatMap (fun q => requestOutput q.1 q.2),
      rst := s.rst.drop n }

/-- R160, R161, R112: from any state at all, FAULT included, one step of reset and then a request gives the
request's own output; nothing of an abandoned request comes out. -/
def Obligations.ResetThenRequestEmitsPack : Prop :=
  ∀ (d : Byte) (P : List Byte) (s : State) (rest : List CmdWord) (levels : List Bool),
    s.rst = true :: levels → (∀ b ∈ levels.take (P.length + 2), b = false) →
    s.input = requestWords d P ++ rest →
    runSteps (P.length + 3) s = .next { s with
      st := .idle, mode := requestMode d 0#1, acc := 0x00#8, cnt := 0#3, input := rest,
      output := s.output ++ requestOutput d P, rst := levels.drop (P.length + 2) }

/-- R42 and decision D7: the BYTE words of a request are its `PackedBytes` in index order, and none for a
request that fails. -/
def Obligations.ByteWordsOfARequestAreItsPackedBytes : Prop :=
  ∀ (d : Byte) (P : List Byte),
    (∀ B : List Byte, pack (P.map BitVec.toNat) d.toNat = .ok B → bytesOf (requestOutput d P) = B) ∧
    (d ≠ 1#8 → d ≠ 2#8 → bytesOf (requestOutput d P) = [])

/-- R100: the depth is tested before anything else, so `pack` with an illegal depth fails for every `P`. -/
def Obligations.PackFailsAtEveryOtherDepth : Prop :=
  ∀ (P : List Nat) (d : Nat), (d ≠ 1 ∧ d ≠ 2 ↔ pack P d = .error .invalidBitDepth)

/-- R104: the length law. -/
def Obligations.PackLengthLaw : Prop :=
  ∀ P : List Nat,
    (∃ B, pack P 1 = .ok B ∧ B.length = (P.length + 7) / 8) ∧
    (∃ B, pack P 2 = .ok B ∧ B.length = (P.length + 3) / 4)

/-- R105: the empty grid. -/
def Obligations.PackOfTheEmptyGrid : Prop := pack [] 1 = .ok [] ∧ pack [] 2 = .ok []

/-- R103: the sum of R102 and the bitwise OR of R84 give the same byte, never above 255, and all slots full of
ones give 0xFF. -/
def Obligations.GroupByteIsTheOrOfItsSlots : Prop :=
  (∀ (d : Nat) (G : List Nat), d = 1 ∨ d = 2 → G.length ≤ 8 / d →
    groupSum d 0 G ≤ 255 ∧
    groupByte d G = G.zipIdx.foldl
      (fun b g => b ||| (BitVec.ofNat 8 (mapDepth d g.1) <<< ((8 - d) - d * g.2))) 0x00#8) ∧
  groupSum 1 0 (List.replicate 8 1) = 0xFF ∧ groupSum 2 0 (List.replicate 4 3) = 0xFF

/-- R108: unpacking recovers each pixel's mapped value, and the padding unpacks to 0. -/
def Obligations.UnpackRecoversTheMappedPixels : Prop :=
  ∀ (P : List Nat) (d : Nat) (B : List Byte), d = 1 ∨ d = 2 → pack P d = .ok B →
    (∀ i p, P[i]? = some p → unpack B d i = some (mapDepth d p)) ∧
    (∀ i, P.length ≤ i → i < B.length * (8 / d) → unpack B d i = some 0)

/-- R109: only the low two bits matter at depth 2, and only zero or not at depth 1. -/
def Obligations.PackSeesOnlyTheMappedPixels : Prop :=
  ∀ P : List Nat, pack P 2 = pack (P.map fun p => p % 4) 2 ∧
    pack P 1 = pack (P.map fun p => if p = 0 then 0 else 255) 1

/-- R110: the concatenation law at a whole number of groups, and the example that it fails elsewhere. -/
def Obligations.PackOfAConcatenation : Prop :=
  (∀ (P Q : List Nat) (d : Nat), d = 1 ∨ d = 2 → P.length % (8 / d) = 0 →
    ∃ A B, pack P d = .ok A ∧ pack Q d = .ok B ∧ pack (P ++ Q) d = .ok (A ++ B)) ∧
  pack ([255] ++ [255]) 1 = .ok [0xC0#8] ∧ pack [255] 1 = .ok [0x80#8]

/-- R111: zero pixels up to the next multiple of `ppb` change nothing; a further whole group of them adds a
byte 0x00. -/
def Obligations.PackOfAPaddedGrid : Prop :=
  ∀ (P : List Nat) (d z : Nat), d = 1 ∨ d = 2 → z < 8 / d → (P.length + z) % (8 / d) = 0 →
    pack (P ++ List.replicate z 0) d = pack P d ∧
    ∃ B, pack P d = .ok B ∧ pack (P ++ List.replicate (z + 8 / d) 0) d = .ok (B ++ [0x00#8])
end

