-- ==== Sys2Proof/Laws/State.lean ====
section
/-! SUPPORT. One lemma for each field each operation writes, and the fields it leaves; all by
computation, so that a proof cites the operation and unfolds no record. -/

namespace Sys2Proof.Machine

@[simp] theorem emit_st (w : OutWord) (s : State) : (emit w s).st = s.st := rfl
@[simp] theorem emit_mode (w : OutWord) (s : State) : (emit w s).mode = s.mode := rfl
@[simp] theorem emit_acc (w : OutWord) (s : State) : (emit w s).acc = s.acc := rfl
@[simp] theorem emit_cnt (w : OutWord) (s : State) : (emit w s).cnt = s.cnt := rfl
@[simp] theorem emit_input (w : OutWord) (s : State) : (emit w s).input = s.input := rfl
@[simp] theorem emit_rst (w : OutWord) (s : State) : (emit w s).rst = s.rst := rfl
@[simp] theorem emit_output (w : OutWord) (s : State) : (emit w s).output = s.output ++ [w] := rfl

@[simp] theorem takeException_st (e : Exc) (s : State) : (takeException e s).st = e.entry := rfl
@[simp] theorem takeException_mode (e : Exc) (s : State) : (takeException e s).mode = s.mode := rfl
@[simp] theorem takeException_acc (e : Exc) (s : State) : (takeException e s).acc = 0x00#8 := rfl
@[simp] theorem takeException_cnt (e : Exc) (s : State) : (takeException e s).cnt = 0#3 := rfl
@[simp] theorem takeException_input (e : Exc) (s : State) : (takeException e s).input = s.input := rfl
@[simp] theorem takeException_rst (e : Exc) (s : State) : (takeException e s).rst = s.rst := rfl
@[simp] theorem takeException_output (e : Exc) (s : State) : (takeException e s).output = s.output := rfl

@[simp] theorem openRequest_st (m : BitVec 1) (s : State) : (openRequest m s).st = .pack := rfl
@[simp] theorem openRequest_mode (m : BitVec 1) (s : State) : (openRequest m s).mode = m := rfl
@[simp] theorem openRequest_acc (m : BitVec 1) (s : State) : (openRequest m s).acc = 0x00#8 := rfl
@[simp] theorem openRequest_cnt (m : BitVec 1) (s : State) : (openRequest m s).cnt = 0#3 := rfl
@[simp] theorem openRequest_input (m : BitVec 1) (s : State) : (openRequest m s).input = s.input := rfl
@[simp] theorem openRequest_rst (m : BitVec 1) (s : State) : (openRequest m s).rst = s.rst := rfl
@[simp] theorem openRequest_output (m : BitVec 1) (s : State) : (openRequest m s).output = s.output := rfl

@[simp] theorem returnFromReject_st (s : State) : (returnFromReject s).st = .idle := rfl
@[simp] theorem returnFromReject_mode (s : State) : (returnFromReject s).mode = s.mode := rfl
@[simp] theorem returnFromReject_acc (s : State) : (returnFromReject s).acc = s.acc := rfl
@[simp] theorem returnFromReject_cnt (s : State) : (returnFromReject s).cnt = s.cnt := rfl
@[simp] theorem returnFromReject_input (s : State) : (returnFromReject s).input = s.input := rfl
@[simp] theorem returnFromReject_rst (s : State) : (returnFromReject s).rst = s.rst := rfl
@[simp] theorem returnFromReject_output (s : State) :
    (returnFromReject s).output = s.output ++ [doneWord 0x01#8] := rfl

@[simp] theorem applyReset_st (s : State) : (applyReset s).st = .idle := rfl
@[simp] theorem applyReset_mode (s : State) : (applyReset s).mode = 0#1 := rfl
@[simp] theorem applyReset_acc (s : State) : (applyReset s).acc = 0x00#8 := rfl
@[simp] theorem applyReset_cnt (s : State) : (applyReset s).cnt = 0#3 := rfl
@[simp] theorem applyReset_input (s : State) : (applyReset s).input = s.input := rfl
@[simp] theorem applyReset_output (s : State) : (applyReset s).output = s.output := rfl
@[simp] theorem applyReset_rst (s : State) : (applyReset s).rst = s.rst := rfl

@[simp] theorem nextLevel_st (s : State) : s.nextLevel.st = s.st := rfl
@[simp] theorem nextLevel_mode (s : State) : s.nextLevel.mode = s.mode := rfl
@[simp] theorem nextLevel_acc (s : State) : s.nextLevel.acc = s.acc := rfl
@[simp] theorem nextLevel_cnt (s : State) : s.nextLevel.cnt = s.cnt := rfl
@[simp] theorem nextLevel_input (s : State) : s.nextLevel.input = s.input := rfl
@[simp] theorem nextLevel_output (s : State) : s.nextLevel.output = s.output := rfl
@[simp] theorem nextLevel_rst (s : State) : s.nextLevel.rst = s.rst.tail := rfl

@[simp] theorem toState_regs (r : Regs) : r.toState.regs = r := rfl
@[simp] theorem toState_output (r : Regs) : r.toState.output = [] := rfl

end Sys2Proof.Machine
end

