-- ==== Sys2Proof/Laws/Ops.lean ====
section
/-! SUPPORT. One lemma for each shared operation that says once what it can do, and the inversion lemma
of a step; later proofs cite these. -/

namespace Sys2Proof.Machine

/-- The two depths: `(d, ppb, shift_base)` is `(1, 8, 7)` or `(2, 4, 6)` (R10). -/
theorem mode_cases (mode : BitVec 1) :
    (mode = 0#1 ∧ depthOf mode = 1 ∧ ppbOf mode = 8 ∧ shiftBaseOf mode = 7) ∨
    (mode = 1#1 ∧ depthOf mode = 2 ∧ ppbOf mode = 4 ∧ shiftBaseOf mode = 6) := by
  revert mode; decide

/-- The shift table of R87, for the slots that exist. -/
theorem slotShift_table :
    (List.range 8).map (fun j => slotShift 0#1 (BitVec.ofNat 3 j)) = [7, 6, 5, 4, 3, 2, 1, 0] ∧
    (List.range 4).map (fun j => slotShift 1#1 (BitVec.ofNat 3 j)) = [6, 4, 2, 0] := by decide

/-- At depth 1 every slot exists. -/
theorem slotExists_depth_one (cnt : BitVec 3) : slotExists 0#1 cnt = true := by
  revert cnt; decide

/-- Where the slot exists the byte is the OR of R84. -/
theorem insertPixel_of_slotExists {mode : BitVec 1} {cnt : BitVec 3} (h : slotExists mode cnt = true)
    (acc p : Byte) :
    insertPixel mode acc cnt p = acc ||| (mapPixel mode p <<< slotShift mode cnt) := by
  simp [insertPixel, h]

/-- A group that goes on counts one more pixel. -/
theorem nextCnt_of_ne {cnt : BitVec 3} (h : cnt ≠ 7#3) : nextCnt cnt = cnt + 1#3 := by
  simp [nextCnt, h]

/-- PIX in PACK: the group is completed and its byte emitted, or it goes on. -/
theorem placePixel_cases (p : Byte) (s : State) :
    (s.cnt.toNat = ppbOf s.mode - 1 ∧
      placePixel p s = { s with
        acc := 0x00#8, cnt := 0#3,
        output := s.output ++ [byteWord (insertPixel s.mode s.acc s.cnt p)] }) ∨
    (s.cnt.toNat ≠ ppbOf s.mode - 1 ∧
      placePixel p s = { s with acc := insertPixel s.mode s.acc s.cnt p, cnt := nextCnt s.cnt }) := by
  by_cases h : s.cnt.toNat = ppbOf s.mode - 1
  · exact .inl ⟨h, by simp [placePixel, h, emit]⟩
  · exact .inr ⟨h, by simp [placePixel, h]⟩

/-- END in PACK: what it emits, and the state it leaves. -/
theorem closeRequest_eq (s : State) :
    closeRequest s = { s with
      st := .idle, acc := 0x00#8, cnt := 0#3,
      output := s.output ++ (if s.cnt = 0#3 then [] else [byteWord s.acc]) ++ [doneWord 0x00#8] } := by
  by_cases h : s.cnt = 0#3 <;> simp [closeRequest, flushGroup, emit, statusSuccess, h]

/-- The kind and data fields of the two output words: R67. -/
theorem byteWord_fields (b : Byte) : isDone (byteWord b) = false ∧ dataOf (byteWord b) = b := by
  revert b; decide

theorem doneWord_fields (b : Byte) : isDone (doneWord b) = true ∧ dataOf (doneWord b) = b := by
  revert b; decide

/-- The opcode and operand fields of an encoded command: R60. -/
theorem encode_fields (i : Instr) : opField (encode i) = i.opcode ∧ argField (encode i) = i.arg := by
  have concat : ∀ (o : BitVec 2) (a : Byte),
      (o ++ a).extractLsb' 8 2 = o ∧ (o ++ a).extractLsb' 0 8 = a := by decide
  exact concat i.opcode i.arg

/-- What a step can do: reset, idle, or run the command at the front of the input stream. -/
theorem step_cases {s t : State} (h : step s = .next t) :
    (s.rstLevel = true ∧ t = applyReset s.nextLevel) ∨
    (s.rstLevel = false ∧ s.input = [] ∧ t = s.nextLevel) ∨
    (∃ w rest, s.rstLevel = false ∧ s.input = w :: rest ∧
      exec (decode w) { s with input := rest, rst := s.rst.tail } = .next t) := by
  unfold step at h
  cases hl : s.rstLevel with
  | true =>
    simp only [hl, if_true, Host.Outcome.next.injEq] at h
    exact .inl ⟨rfl, h.symm⟩
  | false =>
    cases hi : s.input with
    | nil =>
      simp only [hl, takeWord, nextLevel_input, hi, Bool.false_eq_true, if_false,
        Host.Outcome.next.injEq] at h
      exact .inr (.inl ⟨rfl, rfl, h.symm⟩)
    | cons w rest =>
      simp only [hl, takeWord, nextLevel_input, hi, Bool.false_eq_true, if_false] at h
      exact .inr (.inr ⟨w, rest, rfl, rfl, h⟩)

end Sys2Proof.Machine
end

