-- ==== Sys2Proof/Laws/Exec.lean ====
section
/-! SUPPORT. What any command does to the streams: it answers a next state, leaves the offered words and
`rst` alone, appends words that do not depend on what the streams hold, and commutes with a change of
the streams. -/

namespace Sys2Proof.Machine

/-- One command on a machine, and the same command on the machine with other streams. -/
theorem exec_appends (i : Instr) (s : State) (inp : List CmdWord) (out : List OutWord)
    (rst : List Bool) :
    ∃ t ws, exec i s = .next t ∧ t.input = s.input ∧ t.rst = s.rst ∧ t.output = s.output ++ ws ∧
      exec i { s with input := inp, output := out, rst := rst } =
        .next { t with input := inp, rst := rst, output := out ++ ws } := by
  cases i with
  | pix p =>
    cases hs : s.st <;> simp only [exec, execPix, hs]
    case pack =>
      by_cases hc : s.cnt.toNat = ppbOf s.mode - 1
      · exact ⟨_, [byteWord (insertPixel s.mode s.acc s.cnt p)], rfl, by simp [placePixel, hc, emit, hs]⟩
      · exact ⟨_, [], rfl, by simp [placePixel, hc, hs]⟩
    all_goals exact ⟨_, [], rfl, rfl, rfl, by simp, by simp [takeException, hs]⟩
  | start depth =>
    cases hs : s.st <;> simp only [exec, execStart, hs]
    case idle =>
      split_ifs <;> exact ⟨_, [], rfl, rfl, rfl, by simp, by simp [takeException, openRequest]⟩
    all_goals exact ⟨_, [], rfl, rfl, rfl, by simp, by simp [takeException, hs]⟩
  | endReq arg =>
    cases hs : s.st <;> simp only [exec, execEndReq, hs]
    case pack =>
      exact ⟨_, (if s.cnt = 0#3 then [] else [byteWord s.acc]) ++ [doneWord 0x00#8], rfl,
        by simp [closeRequest_eq]⟩
    case reject =>
      exact ⟨_, [doneWord 0x01#8], rfl, rfl, rfl, rfl, by simp [returnFromReject, emit, Exc.code]⟩
    all_goals exact ⟨_, [], rfl, rfl, rfl, by simp, by simp [takeException, hs]⟩
  | rsv arg =>
    cases hs : s.st <;> simp only [exec, execRsv, hs] <;>
      exact ⟨_, [], rfl, rfl, rfl, by simp, by simp [takeException, hs]⟩

end Sys2Proof.Machine
end

