-- ==== Sys2Proof/Laws/Pack.lean ====
section
/-! SUPPORT. What `pack` and `unpack` are at a legal depth and at any other: 41_pack_function.md R100, R107. -/

namespace Sys2Proof.Machine

/-- At a legal depth `pack` succeeds with the bytes of the groups (R100). -/
theorem pack_of_legal {d : Nat} (h : d = 1 ∨ d = 2) (P : List Nat) : pack P d = .ok (packBytes d P) := by
  simp [pack, h]

/-- At a legal depth `unpack` is the formula of R107. -/
theorem unpack_of_legal {d : Nat} (h : d = 1 ∨ d = 2) (B : List Byte) (i : Nat) :
    unpack B d i =
      (B[i / ppbAt d]?).map fun b => (b.toNat >>> ((8 - d) - d * (i % ppbAt d))) &&& (2 ^ d - 1) := by
  simp [unpack, h]

/-- At any other depth `unpack` gives no value (log 13). -/
theorem unpack_of_illegal {d : Nat} (h : ¬ (d = 1 ∨ d = 2)) (B : List Byte) (i : Nat) :
    unpack B d i = none := by
  simp [unpack, h]

end Sys2Proof.Machine
end

