-- ==== Sys2Proof/Laws/PerInstr.lean ====
section
/-! SUPPORT. Statements about every command as syntax, one lemma per constructor of Instr. -/

namespace Sys2Proof.Laws.EncodeMatchesTable

/-- The `match` value of a command's row in the opcode map of 30_encoding.md R61. -/
def tableMatch : Instr → CmdWord
  | .pix _ => 0x000#10
  | .start _ => 0x100#10
  | .endReq _ => 0x200#10
  | .rsv _ => 0x300#10

/-- The encoded word matches its own row, `(w & mask) == match` with mask 0x300 (R61). -/
def Statement (i : Instr) : Prop := encode i &&& 0x300#10 = tableMatch i

theorem pix (p : Byte) : Statement (.pix p) := by
  have h : ∀ a : Byte, (0b00#2 ++ a) &&& 0x300#10 = 0x000#10 := by decide
  exact h p

theorem start (depth : Byte) : Statement (.start depth) := by
  have h : ∀ a : Byte, (0b01#2 ++ a) &&& 0x300#10 = 0x100#10 := by decide
  exact h depth

theorem endReq (arg : Byte) : Statement (.endReq arg) := by
  have h : ∀ a : Byte, (0b10#2 ++ a) &&& 0x300#10 = 0x200#10 := by decide
  exact h arg

theorem rsv (arg : Byte) : Statement (.rsv arg) := by
  have h : ∀ a : Byte, (0b11#2 ++ a) &&& 0x300#10 = 0x300#10 := by decide
  exact h arg

end Sys2Proof.Laws.EncodeMatchesTable
end

