-- ==== Sys2Proof/Laws/Runs.lean ====
section
/-! SUPPORT. Lemmas about runs of the machine and about the levels of `rst` along them. -/

namespace Sys2Proof.Machine

@[simp] theorem runSteps_zero (s : State) : runSteps 0 s = .next s := rfl

/-- One more step in front of a run. -/
theorem runSteps_of_step {s t : State} (h : step s = .next t) (k : Nat) :
    runSteps (k + 1) s = runSteps k t := by
  simp [runSteps, h]

/-- One more step in front of a run of any machine, for the three outcomes of that step. -/
theorem run_succ_of_next (M : Host.Core) {s t : M.State} (h : M.step s = .next t) (k : Nat) :
    M.run (k + 1) s = M.run k t := by
  simp [Host.Core.run, h]

theorem run_succ_of_fault (M : Host.Core) {s : M.State} {r : M.Fault} (h : M.step s = .fault r)
    (k : Nat) : M.run (k + 1) s = .fault r := by
  simp [Host.Core.run, h]

theorem run_succ_of_refused (M : Host.Core) {s : M.State} {r : M.Refusal}
    (h : M.step s = .refused r) (k : Nat) : M.run (k + 1) s = .refused r := by
  simp [Host.Core.run, h]

/-- `runSteps` is the host's own run of `core`. -/
theorem core_run_eq_runSteps (k : Nat) : ∀ s : State, Sys2Proof.core.run k s = runSteps k s := by
  induction k with
  | zero => intro s; rfl
  | succ k ih =>
    intro s
    cases h : step s with
    | next t => exact (run_succ_of_next Sys2Proof.core h k).trans ((ih t).trans (runSteps_of_step h k).symm)
    | fault r =>
      exact (run_succ_of_fault Sys2Proof.core h k).trans (show .fault r = runSteps (k + 1) s by simp [runSteps, h])
    | refused r =>
      exact (run_succ_of_refused Sys2Proof.core h k).trans
        (show .refused r = runSteps (k + 1) s by simp [runSteps, h])

/-- With `rst` low for at least one step, the next step sees it low. -/
theorem rstLevel_of_quiet {s : State} {k : Nat} (h : s.Quiet (k + 1)) : s.rstLevel = false := by
  unfold State.rstLevel
  cases hr : s.rst with
  | nil => rfl
  | cons b bs => exact h b (by simp [hr])

/-- What is low for `k + 1` steps is low for `k` steps once the first is over. -/
theorem quiet_tail {s : State} {k : Nat} (h : s.Quiet (k + 1)) :
    ∀ b ∈ s.rst.tail.take k, b = false := by
  intro b hb
  cases hr : s.rst with
  | nil => simp [hr] at hb
  | cons c cs =>
    simp only [hr, List.tail_cons] at hb
    exact h b (by simp [hr, hb])

end Sys2Proof.Machine
end

