-- ==== Sys2Proof/Tests/Slice0.lean ====
section
/-! SUPPORT. Tests. Expected results come from spec/: the encodings of 30_encoding.md R61, the vectors
V1 to V45 and the programs P1 to P6 of 95_test_vectors.md. The `witness_` theorems show a state and operands
that meet every hypothesis of a statement. -/

namespace Sys2Proof.Tests

open Sys2Proof Sys2Proof.Machine

/-- A machine with the given registers, words offered and `rst` low. -/
def mk (st : St) (mode : BitVec 1) (acc : Byte) (cnt : BitVec 3) (input : List CmdWord := []) : State :=
  { st, mode, acc, cnt, input, output := [], rst := [] }

/-- The next state of a step, if it is one. -/
def nextOf (o : Host.Outcome State Fault Refusal) : Option State :=
  match o with
  | .next t => some t
  | .fault _ => none
  | .refused _ => none

/-- The registers and the output after one command, in the order the spec prints them. -/
def after (i : Instr) (s : State) : Option (Regs × List OutWord) :=
  (nextOf (exec i s)).map fun t => (t.regs, t.output)

/-! ### WellFormed: each check refuses an ill-formed term -/

theorem test_line_operand_range : Line.wf (.pix 256) = false ∧ Line.wf (.start 256) = false ∧
    Line.wf (.endReq (some 256)) = false ∧ Line.wf (.rsv 256) = false ∧ Line.wf (.pack 256 []) = false ∧
    Line.wf (.pack 1 [0, 256]) = false ∧ Line.wf (.pack 255 [0, 255]) = true := by decide

theorem test_protocol_violations : protocolFrom false [.pix 255] = false ∧
    protocolFrom false [.endReq 0] = false ∧ protocolFrom false [.start 1, .start 2] = false ∧
    protocolFrom false [.start 1, .rsv 0] = false ∧ protocolFrom false [.rsv 0] = false ∧
    protocolFrom false [.start 3, .pix 1, .endReq 0, .start 1] = true := by decide

/-! ### Decoding: words written bit by bit from R61 -/

theorem test_decode_pix : decode 0b0011111111#10 = .pix 255#8 := by decide
theorem test_decode_start : decode 0b0110000001#10 = .start 129#8 := by decide
theorem test_decode_end : decode 0b1010101011#10 = .endReq 0xAB#8 := by decide
theorem test_decode_rsv : decode 0b1100000000#10 = .rsv 0#8 := by decide
theorem test_table_word_too_wide : decodeTableWord 16 0x400 = none ∧
    decodeTableWord 16 0x3FF = some (.rsv 255#8) := by decide

/-! ### One step of each command: 95_test_vectors.md section 2 -/

/-- V13 row 3, the example of R84. -/
theorem test_pix_depth1_completes : after (.pix 255) (mk .pack 0 0x62 7) =
    some (⟨.pack, 0, 0x00, 0⟩, [0x063#9]) := by decide
/-- V23 rows 2 and 4: truncation, natural bit order in the slot. -/
theorem test_pix_depth2_slots : after (.pix 2) (mk .pack 1 0x10 2) = some (⟨.pack, 1, 0x18, 3⟩, []) ∧
    after (.pix 7) (mk .pack 1 0x00 0) = some (⟨.pack, 1, 0xC0, 1⟩, []) := by decide
/-- V3, V5 and V7: the depth changes between requests; the whole operand is tested. -/
theorem test_start_depths : after (.start 1) (mk .idle 1 0 0) = some (⟨.pack, 0, 0, 0⟩, []) ∧
    after (.start 3) (mk .idle 1 0 0) = some (⟨.reject, 1, 0, 0⟩, []) ∧
    after (.start 129) (mk .idle 0 0 0) = some (⟨.reject, 0, 0, 0⟩, []) := by decide
/-- V9a: ProtocolError wins over InvalidBitDepth. -/
theorem test_start_open_request : after (.start 3) (mk .pack 0 0 0) =
    some (⟨.fault, 0, 0, 0⟩, []) := by decide
/-- V32 and V34: `cnt` decides, the operand is ignored. -/
theorem test_end_flushes : after (.endReq 0) (mk .pack 0 0x00 3) =
    some (⟨.idle, 0, 0, 0⟩, [0x000#9, 0x100#9]) ∧
    after (.endReq 0xAB) (mk .pack 1 0x40 1) = some (⟨.idle, 1, 0, 0⟩, [0x040#9, 0x100#9]) := by decide
/-- V31 and V35. -/
theorem test_end_reports : after (.endReq 0) (mk .pack 0 0 0) = some (⟨.idle, 0, 0, 0⟩, [0x100#9]) ∧
    after (.endReq 0) (mk .reject 0 0 0) = some (⟨.idle, 0, 0, 0⟩, [0x101#9]) := by decide
/-- V38a and V38b. -/
theorem test_rsv : after (.rsv 255) (mk .pack 0 0x80 1) = some (⟨.fault, 0, 0, 0⟩, []) ∧
    after (.rsv 0) (mk .reject 1 0 0) = some (⟨.fault, 1, 0, 0⟩, []) := by decide
/-- V39a: reset leaves FAULT and takes no word (R160). -/
theorem test_reset_leaves_fault :
    nextOf (step { mk .fault 1 0 0 [0x101#10] with rst := [true] }) =
      some (mk .idle 0 0 0 [0x101#10]) := by decide

/-! ### Whole grids and text: S7, S9, V21, V41, R69, R70 -/

theorem test_pack : pack [0, 1, 2, 3] 2 = .ok [0x1B] ∧ pack [0, 255] 1 = .ok [0x40] ∧
    pack [255, 254, 253, 252] 2 = .ok [0xE4] ∧ pack [1] 3 = .error .invalidBitDepth := by decide
theorem test_unpack : (List.range 9).map (unpack [0x1B, 0xE0] 2) =
    [some 0, some 1, some 2, some 3, some 3, some 2, some 0, some 0, none] := by decide
theorem test_run_P3 : (runS resetS [0x103, 0x0FF, 0x200, 0x101, 0x0FF, 0x200]).2 =
    [0x101, 0x080, 0x100] := by decide
theorem test_text_start :
    assembleText ['S', 'T', 'A', 'R', 'T', ' ', '0', 'x', '1', ' ', ';', 'w'] = .ok [0x101] := by decide
theorem test_text_pack :
    assembleText ['P', 'A', 'C', 'K', ' ', '2', ',', ' ', '[', '7', ']'] = .ok [0x102, 0x007, 0x200] := by
  decide
theorem test_text_errors : assembleText ['P', 'I', 'X', ' ', '2', '5', '6'] = .error .operandRange ∧
    assembleText ['P', 'I', 'X'] = .error .badLine := by decide

/-! ### Witnesses: a state and operands that meet the hypotheses of each statement -/

theorem witness_DecodeFollowsTheOpcodeMap :
    (0x000#10 &&& 0x300#10 = 0x000#10 ∧ 0x0FF#10 &&& 0x300#10 = 0x000#10) ∧
    (0x100#10 &&& 0x300#10 = 0x100#10 ∧ 0x1FF#10 &&& 0x300#10 = 0x100#10) ∧
    (0x200#10 &&& 0x300#10 = 0x200#10 ∧ 0x2FF#10 &&& 0x300#10 = 0x200#10) ∧
    (0x300#10 &&& 0x300#10 = 0x300#10 ∧ 0x3FF#10 &&& 0x300#10 = 0x300#10) := by decide
theorem witness_TableWordsReachTheDecoder :
    10 ≤ 16 ∧ 0x3FF < 1024 ∧ 1024 ≤ 0x400 ∧ 0x400 < 2 ^ 16 := by decide
theorem witness_LinesAssembleToTheirWords : 255 ≤ 255 ∧ 255 < 256 ∧
    (255 ≤ 255 ∧ ∀ p ∈ [0, 255], p ≤ 255) ∧ ∃ p ∈ [0, 256], 255 < p := by decide
theorem witness_StepRunsTheDecodedFrontWord :
    (mk .idle 0 0 0 [0x101, 0x200]).rstLevel = false ∧
    (mk .idle 0 0 0 [0x101, 0x200]).input = encode (.start 1) :: [0x200] := by decide
theorem witness_OfferedTableWordRunsNext : 10 ≤ 16 ∧ 0x2FF < 1024 := by decide
theorem witness_ResetOverridesTheOfferedWord :
    State.rstLevel { mk .pack 1 0x80 1 [0x003] with rst := [true] } = true := by decide
theorem witness_IdleWithoutAnOfferedWord :
    (mk .pack 0 0x80 1).rstLevel = false ∧ (mk .pack 0 0x80 1).input = [] := by decide
theorem witness_StartOpensOrRejectsARequest : (mk .idle 0 0 0).st = .idle ∧
    ((1#8 : Byte) = 1#8) ∧ ((2#8 : Byte) = 2#8) ∧ ((0#8 : Byte) ≠ 1#8 ∧ (0#8 : Byte) ≠ 2#8) ∧
    ((3#8 : Byte) ≠ 1#8 ∧ (3#8 : Byte) ≠ 2#8) ∧ (mk .pack 0 0 0).st = .pack ∧
    (mk .reject 0 0 0).st = .reject := by decide
theorem witness_PixPlacesThePixelOrEmitsTheByte : (mk .idle 0 0 0).st = .idle ∧
    (mk .reject 0 0 0).st = .reject ∧ (mk .pack 0 0x62 7).st = .pack ∧
    (mk .pack 0 0x62 7).cnt.toNat = 8 >>> (mk .pack 0 0x62 7).mode.toNat - 1 ∧
    (mk .pack 0 0x62 6).cnt.toNat < 8 >>> (mk .pack 0 0x62 6).mode.toNat - 1 ∧
    (mk .pack 1 0x18 3).cnt.toNat = 8 >>> (mk .pack 1 0x18 3).mode.toNat - 1 ∧
    (mk .pack 1 0x10 2).cnt.toNat < 8 >>> (mk .pack 1 0x10 2).mode.toNat - 1 := by decide
theorem witness_PixWithoutASlotStillRuns : (mk .pack 1 0 4).st = .pack ∧
    8 >>> (mk .pack 1 0 4).mode.toNat ≤ (mk .pack 1 0 4).cnt.toNat ∧ (mk .pack 1 0 4).cnt ≠ 7#3 ∧
    8 >>> (mk .pack 1 0 7).mode.toNat ≤ (mk .pack 1 0 7).cnt.toNat := by decide
theorem witness_EndFlushesAndReports : (mk .idle 0 0 0).st = .idle ∧ (mk .pack 1 0xE0 2).st = .pack ∧
    (mk .pack 1 0xE0 2).cnt ≠ 0#3 ∧ (mk .pack 0 0 0).cnt = 0#3 ∧ (mk .reject 0 0 0).st = .reject := by decide
theorem witness_ReservedOpcodeRaisesProtocolError : (mk .idle 0 0 0).st ≠ .fault ∧
    (mk .pack 0 0x80 1).st ≠ .fault ∧ (mk .reject 0 0 0).st ≠ .fault := by decide
theorem witness_FaultDropsEveryCommand : (mk .fault 1 0 0).st = .fault := by decide
theorem witness_PixFillsExactlyItsSlot : (mk .pack 1 0x18 3).Inv ∧ (mk .pack 1 0x18 3).st = .pack ∧
    2 = (mk .pack 1 0x18 3).mode.toNat + 1 ∧
    exec (.pix 3) (mk .pack 1 0x18 3) =
      .next { mk .pack 1 0x00 0 with output := [0x01B#9] } := ⟨by decide, rfl, rfl, rfl⟩
theorem witness_PixFillsExactlyItsSlot_goesOn : (mk .pack 0 0x40 2).Inv ∧
    1 = (mk .pack 0 0x40 2).mode.toNat + 1 ∧
    exec (.pix 9) (mk .pack 0 0x40 2) = .next (mk .pack 0 0x60 3) := ⟨by decide, rfl, rfl⟩
theorem witness_CommandsLeaveTheRestUnchanged :
    exec (.start 2) (mk .idle 0 0 0) = .next (mk .pack 1 0 0) ∧
    exec (.pix 1) (mk .reject 0 0 0) = .next (mk .reject 0 0 0) ∧
    exec (.endReq 0) (mk .reject 0 0 0) = .next { mk .idle 0 0 0 with output := [0x101#9] } ∧
    exec (.rsv 0) (mk .idle 0 0 0) = .next (mk .fault 0 0 0) := ⟨rfl, rfl, rfl, rfl⟩
theorem witness_EmittedWordsOfEachCommand : exec (.endReq 0) (mk .pack 1 0xE0 2) =
    .next { mk .idle 1 0 0 with output := [byteWord 0xE0, doneWord 0x00] } ∧
    isDone (doneWord 0x00) = true := ⟨rfl, by decide⟩
theorem witness_InvariantKeptByEveryStep : (mk .pack 0 0x40 2 [0x0FF]).Inv ∧
    step (mk .pack 0 0x40 2 [0x0FF]) = .next (mk .pack 0 0x60 3) := ⟨by decide, rfl⟩
theorem witness_FaultAbsorbsUntilReset : (mk .fault 0 0 0 [0x101, 0x200]).st = .fault ∧
    (mk .fault 0 0 0 [0x101, 0x200]).Quiet 5 := by decide
theorem witness_ModeWrittenOnlyByLegalStartOrReset :
    step (mk .idle 0 0 0 [0x102]) = .next (mk .pack 1 0 0) ∧
    (mk .pack 1 0 0).mode ≠ (mk .idle 0 0 0 [0x102]).mode ∧
    step { mk .fault 1 0 0 with rst := [true] } = .next (mk .idle 0 0 0) ∧
    (mk .idle 0 0 0).mode ≠ (mk .fault 1 0 0).mode := ⟨rfl, by decide, rfl, by decide⟩
theorem witness_OutcomeDependsOnBlockStateAlone :
    (mk .idle 0 0 0).regs = (mk .idle 0 0 0 [0x001]).regs ∧
    exec (.start 2) (mk .idle 0 0 0) = .next (mk .pack 1 0 0) ∧
    exec (.start 2) (mk .idle 0 0 0 [0x001]) = .next (mk .pack 1 0 0 [0x001]) := ⟨rfl, rfl, rfl⟩
theorem witness_OutputStreamIsNeverRead :
    runSteps 2 (mk .idle 0 0 0 [0x102, 0x200]) =
      .next { mk .idle 1 0 0 with output := [0x100#9] } := rfl
theorem witness_LaterInputNeverChangesEarlierOutput :
    2 ≤ (mk .idle 0 0 0 [0x102, 0x200]).input.length ∧
    runSteps 2 (mk .idle 0 0 0 [0x102, 0x200]) =
      .next { mk .idle 1 0 0 with output := [0x100#9] } := ⟨by decide, rfl⟩
theorem witness_MachineRunsTheFoldOfStep :
    (mk .idle 0 0 0 [0x101, 0x0FF, 0x200]).input = [0x101, 0x0FF] ++ [0x200] ∧
    (mk .idle 0 0 0 [0x101, 0x0FF, 0x200]).Quiet [0x101#10, 0x0FF].length := by decide
theorem witness_ProtocolDecidesFaultAndFinish :
    (mk .idle 0 0 0 [0x103, 0x0FF, 0x200]).st = .idle ∧
    (mk .idle 0 0 0 [0x103, 0x0FF, 0x200]).input = [0x103, 0x0FF, 0x200] ++ [] ∧
    (mk .idle 0 0 0 [0x103, 0x0FF, 0x200]).Quiet 3 ∧
    protocolFrom false ([0x103, 0x0FF, 0x200].map decode) = true ∧
    protocolFrom false ([0x0FF, 0x101, 0x200].map decode) = false := by decide
theorem witness_ExecIsTheStateTable : ((mk .pack 1 0 3).st = .pack →
    (mk .pack 1 0 3).cnt.toNat ≤ ppbOf (mk .pack 1 0 3).mode - 1) ∧
    ((mk .pack 0 0 7).st = .pack →
      (mk .pack 0 0 7).cnt.toNat ≤ ppbOf (mk .pack 0 0 7).mode - 1) := by decide
theorem witness_UnclosedRequestNeverCompletes : (mk .pack 0 0 0 [0x0FF, 0x001]).st = .pack ∧
    (mk .pack 0 0 0 [0x0FF, 0x001]).input = [0xFF#8, 0x01#8].map (fun p => encode (.pix p)) ∧
    (mk .pack 0 0 0 [0x0FF, 0x001]).Quiet 9 := by decide
theorem witness_RunOfARequestEmitsPack : (resetS).st = .idle ∧
    pack ([0#8, 255#8].map BitVec.toNat) (1#8 : Byte).toNat = .ok [0x40#8] ∧
    pack ([7#8].map BitVec.toNat) (2#8 : Byte).toNat = .ok [0xC0#8] ∧
    2 ≤ [0#8, 255#8].length ∧ 8 = 8 / (1#8 : Byte).toNat ∧
    (3#8 : Byte) ≠ 1#8 ∧ (3#8 : Byte) ≠ 2#8 := by decide
theorem witness_BatchOfRequestsEmitsEachPack :
    (mk .idle 0 0 0 [0x103, 0x0FF, 0x200, 0x101, 0x200]).Inv ∧
    (mk .idle 0 0 0 [0x103, 0x0FF, 0x200, 0x101, 0x200]).st = .idle ∧
    (mk .idle 0 0 0 [0x103, 0x0FF, 0x200, 0x101, 0x200]).input =
      [((3#8 : Byte), [255#8]), (1#8, [])].flatMap (fun q => requestWords q.1 q.2) ++ [] ∧
    5 = ([((3#8 : Byte), [255#8]), (1#8, [])].map fun q => q.2.length + 2).sum ∧
    (mk .idle 0 0 0 [0x103, 0x0FF, 0x200, 0x101, 0x200]).Quiet 5 := by decide
theorem witness_ResetThenRequestEmitsPack :
    State.rst { mk .fault 1 0 0 [0x101, 0x0FF, 0x200] with rst := [true, false] } = true :: [false] ∧
    (∀ b ∈ [false].take ([255#8].length + 2), b = false) ∧
    (mk .fault 1 0 0 [0x101, 0x0FF, 0x200]).input = requestWords 1#8 [255#8] ++ [] := by decide
theorem witness_ByteWordsOfARequestAreItsPackedBytes :
    pack ([255#8].map BitVec.toNat) (1#8 : Byte).toNat = .ok [0x80#8] ∧
    (0#8 : Byte) ≠ 1#8 ∧ (0#8 : Byte) ≠ 2#8 := by decide
theorem witness_GroupByteIsTheOrOfItsSlots :
    [1, 0, 255].length ≤ 8 / 1 ∧ [0, 1, 2, 3].length ≤ 8 / 2 := by decide
theorem witness_UnpackRecoversTheMappedPixels : pack [0, 1, 2, 3, 7, 2] 2 = .ok [0x1B#8, 0xE0#8] ∧
    [0, 1, 2, 3, 7, 2][5]? = some 2 ∧ [0, 1, 2, 3, 7, 2].length ≤ 6 ∧
    7 < [0x1B#8, 0xE0#8].length * (8 / 2) := by decide
theorem witness_PackOfAConcatenation : [1, 1, 1, 1, 1, 1, 1, 1].length % (8 / 1) = 0 ∧
    [0, 1, 2, 3].length % (8 / 2) = 0 := by decide
theorem witness_PackOfAPaddedGrid : 7 < 8 / 1 ∧ ([255].length + 7) % (8 / 1) = 0 ∧
    0 < 8 / 2 ∧ ([0, 1, 2, 3].length + 0) % (8 / 2) = 0 := by decide

end Sys2Proof.Tests
end

section
/-! The machine's run and the functional view of 00_scope.md R16: one command is `stepS` on the registers, one step
with a word offered is that command, and a run over words is their fold. -/

namespace Sys2Proof.Machine

/-- The machine after the registers have become `r.1` and the words `r.2` were emitted. -/
def State.advance (s : State) (r : Regs × List OutWord) : State :=
  { s with
    st := r.1.st, mode := r.1.mode, acc := r.1.acc, cnt := r.1.cnt, output := s.output ++ r.2 }

/-- Emitting nothing from unchanged registers changes nothing. -/
theorem advance_regs_nil (s : State) : s.advance (s.regs, []) = s := by
  simp [State.advance, State.regs]

/-- On the whole machine a command does what `stepS` computes from the registers alone: by `exec_appends` it runs
the same with the machine's streams as with the empty ones `stepS` gives it. -/
theorem exec_decode_eq_stepS (w : CmdWord) (s : State) :
    exec (decode w) s = .next (s.advance (stepS s.regs w)) := by
  obtain ⟨t, ws, hrun, -, -, hout, hstreams⟩ :=
    exec_appends (decode w) s.regs.toState s.input s.output s.rst
  have hstep : stepS s.regs w = (t.regs, ws) := by
    simp only [stepS, hrun, hout, toState_output, List.nil_append]
  have hfields : { t with input := s.input, rst := s.rst, output := s.output ++ ws } =
      s.advance (t.regs, ws) := rfl
  rw [hstep, ← hfields, ← hstreams]
  rfl

/-- R80: with `rst` low a step takes the front word and runs the command it decodes to. -/
theorem step_of_offered {s : State} {w : CmdWord} {rest : List CmdWord} (hlow : s.rstLevel = false)
    (hin : s.input = w :: rest) :
    step s = exec (decode w) { s with input := rest, rst := s.rst.tail } := by
  simp [step, takeWord, hlow, hin, State.nextLevel]

/-- R16: with `rst` low a run over offered words is their fold, by induction on the words; each step also uses one
level of `rst` (log 2). -/
theorem runSteps_eq_runS (ws rest : List CmdWord) (s : State) (hin : s.input = ws ++ rest)
    (hlow : s.Quiet ws.length) :
    runSteps ws.length s =
      .next { s.advance (runS s.regs ws) with input := rest, rst := s.rst.drop ws.length } := by
  induction ws generalizing s with
  | nil =>
    simp [runS, advance_regs_nil, show rest = s.input from hin.symm]
  | cons w ws ih =>
    have hstep := (step_of_offered (rstLevel_of_quiet hlow) hin).trans (exec_decode_eq_stepS w _)
    rw [List.length_cons, runSteps_of_step hstep, ih _ rfl (quiet_tail hlow)]
    simp [runS, State.advance, State.regs]

/-- Settles O30: the run over the words is the fold `runS`, by `runSteps_eq_runS`. -/
theorem machineRunsTheFoldOfStep : Obligations.MachineRunsTheFoldOfStep := by
  unfold Obligations.MachineRunsTheFoldOfStep
  exact runSteps_eq_runS

end Sys2Proof.Machine
end

section
/-! The state of 10_state.md: the status view of R28, the invariant of R31 over every operation, what each command
does to the machine said once as the relation `Effect`, and the statements that follow from it case by case. -/

namespace Sys2Proof.Machine

/-! ### The status output: R21, R28 -/

/-- The field `status[2]` is `mode`. -/
theorem status_extract_mode (s : State) : s.status.extractLsb' 2 1 = s.mode :=
  BitVec.extractLsb'_append_eq_left

/-- The field `status[1:0]` is the encoding of `st`. -/
theorem status_extract_st (s : State) : s.status.extractLsb' 0 2 = s.st.bits :=
  BitVec.extractLsb'_append_eq_right

/-- No two values of `st` share an encoding: R21. -/
theorem bits_eq_iff (a b : St) : a.bits = b.bits ↔ a = b := by
  cases a <;> cases b <;> decide

/-- Settles O11: `st` is read off its encoding, which tells the four values apart. -/
theorem statusShowsModeAndSt : Obligations.StatusShowsModeAndSt := by
  intro s
  have encoding (x : St) : s.st = x ↔ s.status.extractLsb' 0 2 = x.bits := by
    rw [status_extract_st, bits_eq_iff]
  exact ⟨status_extract_mode s, encoding .idle, encoding .pack, encoding .reject, encoding .fault⟩

/-! ### What PIX and END in PACK leave unchanged -/

@[simp] theorem placePixel_st (p : Byte) (s : State) : (placePixel p s).st = s.st := by
  obtain ⟨-, h⟩ | ⟨-, h⟩ := placePixel_cases p s <;> rw [h]

@[simp] theorem placePixel_mode (p : Byte) (s : State) : (placePixel p s).mode = s.mode := by
  obtain ⟨-, h⟩ | ⟨-, h⟩ := placePixel_cases p s <;> rw [h]

@[simp] theorem closeRequest_mode (s : State) : (closeRequest s).mode = s.mode := by
  rw [closeRequest_eq]

/-! ### The invariant of R31 over the operations -/

/-- Whatever `st` is, a machine with no pixel pending has the invariant. -/
theorem inv_of_nothing_pending {s : State} (hacc : s.acc = 0x00#8) (hcnt : s.cnt = 0#3) : s.Inv :=
  ⟨fun _ => ⟨hacc, hcnt⟩, fun _ => by simp [hacc, hcnt]⟩

/-- Settles O23: nothing is pending after reset. -/
theorem invariantHoldsAtReset : Obligations.InvariantHoldsAtReset :=
  inv_of_nothing_pending rfl rfl

/-- The shift of R87 is where the next slot ends: the bits below it belong to later pixels. -/
theorem slotShift_eq (mode : BitVec 1) (cnt : BitVec 3) :
    slotShift mode cnt = 8 - depthOf mode * (cnt.toNat + 1) := by
  rw [slotShift, shiftBaseOf, Nat.mul_succ]
  omega

/-- Placing a pixel leaves the bits below its slot as they were: R84. -/
theorem insertPixel_getLsbD_below {mode : BitVec 1} {cnt : BitVec 3} (hslot : slotExists mode cnt = true)
    (acc p : Byte) {k : Nat} (hk : k < 8 - depthOf mode * (cnt.toNat + 1)) :
    (insertPixel mode acc cnt p).getLsbD k = acc.getLsbD k := by
  rw [← slotShift_eq] at hk
  simp [insertPixel_of_slotExists hslot, hk]

/-- Below 7 the count of R84 does not wrap. -/
theorem nextCnt_toNat {cnt : BitVec 3} (h : cnt.toNat < 7) : (nextCnt cnt).toNat = cnt.toNat + 1 := by
  rw [nextCnt_of_ne (by rintro rfl; exact absurd h (by decide))]
  bv_omega

/-- PIX in PACK keeps the invariant: a completed group leaves nothing pending, and a group that goes on fills its
next slot and none below it. -/
theorem inv_placePixel {s : State} (p : Byte) (hinv : s.Inv) (hst : s.st = .pack) : (placePixel p s).Inv := by
  obtain ⟨-, h⟩ | ⟨hne, h⟩ := placePixel_cases p s
  · rw [h]
    exact inv_of_nothing_pending rfl rfl
  · obtain ⟨hle, hzero⟩ := hinv.2 hst
    have hppb : ppbOf s.mode ≤ 8 := Nat.shiftRight_le 8 _
    have hcnt : (nextCnt s.cnt).toNat = s.cnt.toNat + 1 := nextCnt_toNat (by omega)
    have hslot : slotExists s.mode s.cnt = true := decide_eq_true (by omega)
    rw [h]
    refine ⟨fun hnot => absurd hst hnot, fun _ => ⟨?_, fun k hk => ?_⟩⟩
    · simp only [hcnt]
      omega
    · simp only [hcnt] at hk ⊢
      rw [insertPixel_getLsbD_below hslot _ _ hk]
      exact hzero k (by rw [Nat.mul_succ] at hk; omega)

/-! ### What a command can do -/

/-- `Effect s i t`: command `i` takes `s` to `t`, one constructor for each thing 40_packer_commands.md R81 to R93 lets
a command do, with its guards. `effect_of_exec` ties it to `exec`. -/
inductive Effect (s : State) : Instr → State → Prop
  /-- R93. -/
  | faultDrops (i : Instr) (hst : s.st = .fault) : Effect s i s
  /-- R88. -/
  | rejectDropsPixel (p : Byte) (hst : s.st = .reject) : Effect s (.pix p) s
  /-- R84. -/
  | pixel (p : Byte) (hst : s.st = .pack) : Effect s (.pix p) (placePixel p s)
  /-- R142: PIX outside a request. -/
  | pixelOutside (p : Byte) (hst : s.st = .idle) : Effect s (.pix p) (takeException .protocolError s)
  /-- R81, with the legal depths of R82. -/
  | opens (depth : Byte) (m : BitVec 1) (hst : s.st = .idle)
      (hdepth : (depth = 1#8 ∧ m = 0#1) ∨ (depth = 2#8 ∧ m = 1#1)) : Effect s (.start depth) (openRequest m s)
  /-- R81, R141: START at any other depth. -/
  | illegalDepth (depth : Byte) (hst : s.st = .idle) (hone : depth ≠ 1#8) (htwo : depth ≠ 2#8) :
      Effect s (.start depth) (takeException .invalidBitDepth s)
  /-- R142: START inside a request. -/
  | startInside (depth : Byte) (hst : s.st = .pack ∨ s.st = .reject) :
      Effect s (.start depth) (takeException .protocolError s)
  /-- R89 in PACK. -/
  | closes (arg : Byte) (hst : s.st = .pack) : Effect s (.endReq arg) (closeRequest s)
  /-- R89 in REJECT. -/
  | endsReject (arg : Byte) (hst : s.st = .reject) : Effect s (.endReq arg) (returnFromReject s)
  /-- R142: END outside a request. -/
  | endOutside (arg : Byte) (hst : s.st = .idle) : Effect s (.endReq arg) (takeException .protocolError s)
  /-- R92. -/
  | reserved (arg : Byte) (hst : s.st ≠ .fault) : Effect s (.rsv arg) (takeException .protocolError s)

theorem effect_execPix {p : Byte} {s t : State} (h : execPix p s = .next t) : Effect s (.pix p) t := by
  cases hs : s.st <;> simp only [execPix, hs, Host.Outcome.next.injEq] at h <;> subst h
  case idle => exact .pixelOutside p hs
  case pack => exact .pixel p hs
  case reject => exact .rejectDropsPixel p hs
  case fault => exact .faultDrops _ hs

theorem effect_execStart {depth : Byte} {s t : State} (h : execStart depth s = .next t) :
    Effect s (.start depth) t := by
  cases hs : s.st <;> simp only [execStart, hs, Host.Outcome.next.injEq] at h
  case idle =>
    split_ifs at h with hone htwo <;> cases h
    · exact .opens depth _ hs (.inl ⟨hone, rfl⟩)
    · exact .opens depth _ hs (.inr ⟨htwo, rfl⟩)
    · exact .illegalDepth depth hs hone htwo
  case pack => exact h ▸ .startInside depth (.inl hs)
  case reject => exact h ▸ .startInside depth (.inr hs)
  case fault => exact h ▸ .faultDrops _ hs

theorem effect_execEndReq {arg : Byte} {s t : State} (h : execEndReq arg s = .next t) :
    Effect s (.endReq arg) t := by
  cases hs : s.st <;> simp only [execEndReq, hs, Host.Outcome.next.injEq] at h <;> subst h
  case idle => exact .endOutside arg hs
  case pack => exact .closes arg hs
  case reject => exact .endsReject arg hs
  case fault => exact .faultDrops _ hs

theorem effect_execRsv {arg : Byte} {s t : State} (h : execRsv arg s = .next t) : Effect s (.rsv arg) t := by
  cases hs : s.st <;> simp only [execRsv, hs, Host.Outcome.next.injEq] at h <;> subst h
  case fault => exact .faultDrops _ hs
  all_goals exact .reserved arg (by simp [hs])

/-- `Effect` says all that `exec` can do. -/
theorem effect_of_exec {i : Instr} {s t : State} (h : exec i s = .next t) : Effect s i t := by
  cases i with
  | pix p => exact effect_execPix h
  | start depth => exact effect_execStart h
  | endReq arg => exact effect_execEndReq h
  | rsv arg => exact effect_execRsv h

/-! ### Every step keeps the invariant -/

/-- A command keeps the invariant: PIX in PACK by `inv_placePixel`, and every other command either drops its word or
leaves nothing pending. -/
theorem inv_of_effect {i : Instr} {s t : State} (heff : Effect s i t) (hinv : s.Inv) : t.Inv := by
  cases heff with
  | faultDrops | rejectDropsPixel => exact hinv
  | pixel p hst => exact inv_placePixel p hinv hst
  | endsReject arg hst =>
    obtain ⟨hacc, hcnt⟩ := hinv.1 (by simp [hst])
    exact inv_of_nothing_pending hacc hcnt
  | _ => exact inv_of_nothing_pending rfl rfl

/-- Settles O24: a reset leaves nothing pending, an idle step keeps the registers, and a command keeps the invariant
by `inv_of_effect`; taking the word and using a level of `rst` touch no register. -/
theorem invariantKeptByEveryStep : Obligations.InvariantKeptByEveryStep := by
  intro s t hinv hstep
  obtain ⟨-, rfl⟩ | ⟨-, -, rfl⟩ | ⟨w, rest, -, -, hexec⟩ := step_cases hstep
  · exact inv_of_nothing_pending rfl rfl
  · exact hinv
  · exact inv_of_effect (effect_of_exec hexec) hinv

/-! ### What a command leaves unchanged -/

/-- PIX keeps `mode`; inside a request it keeps `st`, and in REJECT the whole machine: R84, R88. -/
theorem effect_pix_frame {p : Byte} {s t : State} (h : Effect s (.pix p) t) :
    t.mode = s.mode ∧ (s.st = .pack ∨ s.st = .reject → t.st = s.st) ∧ (s.st = .reject → t = s) := by
  cases h <;> simp [*]

/-- START emits nothing: R95. -/
theorem effect_start_frame {depth : Byte} {s t : State} (h : Effect s (.start depth) t) :
    t.output = s.output := by
  cases h <;> rfl

/-- END keeps `mode`, and in REJECT also `acc` and `cnt`: R89. -/
theorem effect_endReq_frame {arg : Byte} {s t : State} (h : Effect s (.endReq arg) t) :
    t.mode = s.mode ∧ (s.st = .reject → t.acc = s.acc ∧ t.cnt = s.cnt) := by
  cases h <;> simp [*]

/-- RSV keeps `mode` and emits nothing: R92, R95. -/
theorem effect_rsv_frame {arg : Byte} {s t : State} (h : Effect s (.rsv arg) t) :
    t.mode = s.mode ∧ t.output = s.output := by
  cases h <;> exact ⟨rfl, rfl⟩

/-- Settles O21: the streams by `exec_appends`, and the registers by the frame of each command. -/
theorem commandsLeaveTheRestUnchanged : Obligations.CommandsLeaveTheRestUnchanged := by
  intro i s t hexec
  have heff := effect_of_exec hexec
  obtain ⟨t', ws, hrun, hinput, hrst, hout, -⟩ := exec_appends i s [] [] []
  obtain rfl : t = t' := Host.Outcome.next.inj (hexec.symm.trans hrun)
  refine ⟨hinput, hrst, ⟨ws, hout⟩, ?_, ?_, ?_, ?_⟩
  · rintro p rfl
    exact effect_pix_frame heff
  · rintro depth rfl
    exact effect_start_frame heff
  · rintro arg rfl
    exact effect_endReq_frame heff
  · rintro arg rfl
    exact effect_rsv_frame heff

/-! ### Who writes `mode` -/

/-- A command word is its two fields: R60. -/
theorem opField_append_argField (w : CmdWord) : opField w ++ argField w = w :=
  BitVec.extractLsb'_append_extractLsb'_eq_extractLsb' (by decide) |>.trans BitVec.extractLsb'_eq_self

/-- Decoding keeps the opcode: R61. The reserved opcode is the one value of `op` the three tests leave. -/
theorem decode_opcode (w : CmdWord) : (decode w).opcode = opField w := by
  have reserved : ∀ op : BitVec 2, op ≠ 0b00#2 → op ≠ 0b01#2 → op ≠ 0b10#2 → 0b11#2 = op := by decide
  unfold decode
  split_ifs with hpix hstart hend
  · exact hpix.symm
  · exact hstart.symm
  · exact hend.symm
  · exact reserved _ hpix hstart hend

/-- Decoding keeps the operand, whatever the opcode: R60. -/
theorem decode_arg (w : CmdWord) : (decode w).arg = argField w := by
  unfold decode
  split_ifs <;> rfl

/-- Encoding undoes decoding, on every word: R61. -/
theorem encode_decode (w : CmdWord) : encode (decode w) = w := by
  rw [encode, decode_opcode, decode_arg, opField_append_argField]

/-- Among the commands only a START in IDLE with depth 1 or 2 changes `mode`: R22. -/
theorem start_of_mode_ne {i : Instr} {s t : State} (h : Effect s i t) (hmode : t.mode ≠ s.mode) :
    ∃ depth, i = .start depth ∧ s.st = .idle ∧ t.st = .pack ∧
      ((depth = 1#8 ∧ t.mode = 0#1) ∨ (depth = 2#8 ∧ t.mode = 1#1)) := by
  cases h with
  | opens depth m hst hdepth => exact ⟨depth, rfl, hst, rfl, hdepth⟩
  | _ => simp at hmode

/-- Settles O26: of what a step can do, an idle step keeps `mode`, a reset writes 0, and a command is left to
`start_of_mode_ne`, whose START is the front word by `encode_decode`. -/
theorem modeWrittenOnlyByLegalStartOrReset : Obligations.ModeWrittenOnlyByLegalStartOrReset := by
  intro s t hstep hmode
  obtain ⟨hhigh, rfl⟩ | ⟨-, -, rfl⟩ | ⟨w, rest, hlow, hin, hexec⟩ := step_cases hstep
  · exact .inl ⟨hhigh, rfl⟩
  · exact absurd rfl hmode
  · obtain ⟨depth, hw, hst, hopen, hdepth⟩ := start_of_mode_ne (effect_of_exec hexec) hmode
    exact .inr ⟨depth, rest, hlow, by rw [hin, ← hw, encode_decode], hst, hopen, hdepth⟩

end Sys2Proof.Machine
end

section
/-! The streams of 20_memory.md: where in its byte a pixel lands (R43, R44), that running neither reads the output
stream (R42) nor looks past the words it takes from the input stream (R51), and the words that carry the bytes (R42). -/

namespace Sys2Proof.Machine

/-! ### The byte PIX builds: R43, R44 -/

/-- PIX in PACK places its pixel: R84. -/
theorem exec_pix_of_pack {s : State} (hst : s.st = .pack) (p : Byte) :
    exec (.pix p) s = .next (placePixel p s) := by
  simp [exec, execPix, hst]

/-- The slots of a group fill the byte: R22. -/
theorem depthOf_mul_ppbOf (mode : BitVec 1) : depthOf mode * ppbOf mode = 8 := by
  revert mode; decide

theorem ppbOf_pos (mode : BitVec 1) : 0 < ppbOf mode := by
  revert mode; decide

/-- A slot that exists ends inside the byte: R87. -/
theorem slot_fits {mode : BitVec 1} {cnt : BitVec 3} (hslot : slotExists mode cnt = true) :
    depthOf mode * cnt.toNat + depthOf mode ≤ 8 := by
  rw [← Nat.mul_succ, ← depthOf_mul_ppbOf mode]
  exact Nat.mul_le_mul_left _ (of_decide_eq_true hslot)

/-- A mapped pixel is at most as wide as its slot: R85, R86. -/
theorem mapPixel_getLsbD_above {mode : BitVec 1} (p : Byte) {j : Nat} (hj : depthOf mode ≤ j) :
    (mapPixel mode p).getLsbD j = false := by
  obtain ⟨rfl, hd, -, -⟩ | ⟨rfl, hd, -, -⟩ := mode_cases mode <;> rw [hd] at hj <;>
    simp [mapPixel, BitVec.getLsbD_of_ge _ _ hj]

/-- The bits of a mapped pixel: at depth 1 whether the pixel is nonzero, at depth 2 its own low bits (R85, R86). -/
theorem mapPixel_getLsbD_within {mode : BitVec 1} (p : Byte) {j : Nat} (hj : j < depthOf mode) :
    (mapPixel mode p).getLsbD j = if depthOf mode = 1 then decide (p ≠ 0#8) else p.getLsbD j := by
  obtain ⟨rfl, hd, -, -⟩ | ⟨rfl, hd, -, -⟩ := mode_cases mode <;> rw [hd] at hj ⊢
  · obtain rfl : j = 0 := by omega
    by_cases hp : p = 0#8 <;> simp [mapPixel, map1, hp]
  · have hbyte : j < 8 := by omega
    simp [mapPixel, map2, hj, hbyte]

/-- The byte of R84 bit by bit, where the slot exists and no later slot is filled: the earlier slots stay, the slot
of R87 holds the mapped pixel, and below it nothing is set. -/
theorem insertPixel_getLsbD {mode : BitVec 1} {acc : Byte} {cnt : BitVec 3} (p : Byte)
    (hslot : slotExists mode cnt = true)
    (hzero : ∀ k, k < 8 - depthOf mode * cnt.toNat → acc.getLsbD k = false) {k : Nat} (hk : k < 8) :
    (insertPixel mode acc cnt p).getLsbD k =
      if 8 - depthOf mode * cnt.toNat ≤ k then acc.getLsbD k
      else if 8 - depthOf mode * (cnt.toNat + 1) ≤ k then
        (if depthOf mode = 1 then decide (p ≠ 0#8)
          else p.getLsbD (k - (8 - depthOf mode * (cnt.toNat + 1))))
      else false := by
  have hfits := slot_fits hslot
  have hend : depthOf mode * (cnt.toNat + 1) = depthOf mode * cnt.toNat + depthOf mode := Nat.mul_succ ..
  have hbit (hle : 8 - depthOf mode * (cnt.toNat + 1) ≤ k) : (insertPixel mode acc cnt p).getLsbD k =
      (acc.getLsbD k || (mapPixel mode p).getLsbD (k - (8 - depthOf mode * (cnt.toNat + 1)))) := by
    rw [insertPixel_of_slotExists hslot, BitVec.getLsbD_or, BitVec.getLsbD_shiftLeft, slotShift_eq,
      decide_eq_true hk, decide_eq_false (Nat.not_lt.2 hle), Bool.not_false, Bool.true_and, Bool.true_and]
  by_cases habove : 8 - depthOf mode * cnt.toNat ≤ k
  · rw [if_pos habove, hbit (by omega), mapPixel_getLsbD_above p (by omega), Bool.or_false]
  by_cases hin : 8 - depthOf mode * (cnt.toNat + 1) ≤ k
  · rw [if_neg habove, if_pos hin, hbit hin, hzero k (by omega), Bool.false_or,
      mapPixel_getLsbD_within p (by omega)]
  · rw [if_neg habove, if_neg hin, insertPixel_getLsbD_below hslot _ _ (by omega), hzero k (by omega)]

/-- Settles O20: the byte is that of `insertPixel`, kept or emitted by `placePixel_cases`, and the invariant gives
the slot and the zeros below it. -/
theorem pixFillsExactlyItsSlot : Obligations.PixFillsExactlyItsSlot := by
  rintro p s t d hinv hst rfl hexec
  obtain rfl : placePixel p s = t := Host.Outcome.next.inj ((exec_pix_of_pack hst p).symm.trans hexec)
  obtain ⟨hle, hzero⟩ := hinv.2 hst
  have hpos := ppbOf_pos s.mode
  have hslot : slotExists s.mode s.cnt = true := decide_eq_true (by omega)
  refine ⟨insertPixel s.mode s.acc s.cnt p, ?_, fun k hk => insertPixel_getLsbD p hslot hzero hk⟩
  obtain ⟨hlast, hplace⟩ | ⟨hne, hplace⟩ := placePixel_cases p s <;> rw [hplace]
  · exact .inr ⟨hlast, rfl, rfl⟩
  · exact .inl ⟨Nat.lt_of_le_of_ne hle hne, rfl, rfl⟩

/-! ### Running on longer streams: R42, R51 -/

/-- With `rst` high a step is a reset: R160. -/
theorem step_of_reset {s : State} (hhigh : s.rstLevel = true) : step s = .next (applyReset s.nextLevel) := by
  simp [step, hhigh]

/-- With `rst` low and no word offered a step only uses its level: R155, log 3. -/
theorem step_of_idle {s : State} (hlow : s.rstLevel = false) (hin : s.input = []) :
    step s = .next s.nextLevel := by
  simp [step, takeWord, hlow, hin]

/-- The machine with `out` in front of its output stream and `more` at the end of its input stream. -/
def State.surround (out : List OutWord) (more : List CmdWord) (s : State) : State :=
  { s with input := s.input ++ more, output := out ++ s.output }

/-- With nothing in front of the output stream this is the host's offer of R41. -/
theorem surround_nil_left (more : List CmdWord) (s : State) : s.surround [] more = s.offer more := rfl

theorem surround_nil_right (out : List OutWord) (s : State) :
    s.surround out [] = { s with output := out ++ s.output } := by
  simp [State.surround]

/-- No command touches the offered words. -/
theorem exec_input {i : Instr} {s t : State} (h : exec i s = .next t) : t.input = s.input := by
  obtain ⟨hinput, -⟩ := commandsLeaveTheRestUnchanged i s t h
  exact hinput

/-- A command runs the same on longer streams, by `exec_appends`. -/
theorem exec_surround {i : Instr} {s t : State} (h : exec i s = .next t) (out : List OutWord)
    (more : List CmdWord) : exec i (s.surround out more) = .next (t.surround out more) := by
  obtain ⟨t', ws, hrun, hinput, hrst, hout, hstreams⟩ :=
    exec_appends i s (s.input ++ more) (out ++ s.output) s.rst
  obtain rfl : t = t' := Host.Outcome.next.inj (h.symm.trans hrun)
  simpa [State.surround, hinput, hrst, hout] using hstreams

/-- A step takes at most one word: R41. -/
theorem step_input_length {s t : State} (h : step s = .next t) : s.input.length ≤ t.input.length + 1 := by
  obtain ⟨-, rfl⟩ | ⟨-, -, rfl⟩ | ⟨w, rest, -, hin, hexec⟩ := step_cases h
  · exact Nat.le_succ _
  · exact Nat.le_succ _
  · rw [hin, exec_input hexec, List.length_cons]

/-- A step does the same on longer streams, unless it finds no word and one is now offered. -/
theorem step_surround {s t : State} (h : step s = .next t) (out : List OutWord) {more : List CmdWord}
    (hmore : more = [] ∨ s.input ≠ []) : step (s.surround out more) = .next (t.surround out more) := by
  obtain ⟨hhigh, rfl⟩ | ⟨hlow, hin, rfl⟩ | ⟨w, rest, hlow, hin, hexec⟩ := step_cases h
  · exact step_of_reset (s := s.surround out more) hhigh
  · obtain rfl := hmore.resolve_right (absurd hin)
    exact step_of_idle (s := s.surround out []) hlow (by simp [State.surround, hin])
  · have hfront : (s.surround out more).input = w :: (rest ++ more) := by simp [State.surround, hin]
    exact (step_of_offered (s := s.surround out more) hlow hfront).trans (exec_surround hexec out more)

/-- A run of one step more is a step and then the run. -/
theorem runSteps_succ_eq_next {k : Nat} {s t : State} :
    runSteps (k + 1) s = .next t ↔ ∃ u, step s = .next u ∧ runSteps k u = .next t := by
  cases h : step s <;> simp [runSteps, h]

/-- A run does the same on longer streams, if it has a word of its own for every step or no further word is
offered. -/
theorem runSteps_surround {k : Nat} {s t : State} (h : runSteps k s = .next t) (out : List OutWord)
    {more : List CmdWord} (hmore : more = [] ∨ k ≤ s.input.length) :
    runSteps k (s.surround out more) = .next (t.surround out more) := by
  induction k generalizing s with
  | zero =>
    obtain rfl : s = t := Host.Outcome.next.inj h
    rfl
  | succ k ih =>
    obtain ⟨u, hstep, hrun⟩ := runSteps_succ_eq_next.1 h
    have htaken := step_input_length hstep
    have hword : more = [] ∨ s.input ≠ [] := hmore.imp_right fun hk => List.ne_nil_of_length_pos (by omega)
    rw [runSteps_of_step (step_surround hstep out hword)]
    exact ih hrun (hmore.imp_right fun hk => by omega)

/-- Settles O28: `runSteps_surround` with words in front of the output stream alone. -/
theorem outputStreamIsNeverRead : Obligations.OutputStreamIsNeverRead := by
  intro k s t out hrun
  rw [← surround_nil_right, ← surround_nil_right]
  exact runSteps_surround hrun out (.inl rfl)

/-- Settles O29: `runSteps_surround` with words at the end of the input stream alone. -/
theorem laterInputNeverChangesEarlierOutput : Obligations.LaterInputNeverChangesEarlierOutput := by
  intro k s t more hwords hrun
  rw [← surround_nil_left, ← surround_nil_left]
  exact runSteps_surround hrun [] (.inr hwords)

/-! ### The word the host offers: R41 -/

/-- Settles O7: a number below 1024 passes the field whole, and the step takes it off again with the level of `rst`
that came with it. -/
theorem offeredTableWordRunsNext : Obligations.OfferedTableWordRunsNext := by
  intro s nbits w hbits hw
  have hfield : w < 2 ^ nbits := Nat.lt_of_lt_of_le hw (Nat.pow_le_pow_right (n := 2) (by decide) hbits)
  have hstep := step_of_offered (s := s.withFetchWord nbits w) rfl rfl
  rwa [Nat.mod_eq_of_lt hfield] at hstep

/-! ### The bytes an output stream carries: R42, D7 -/

@[simp] theorem bytesOf_append (xs ys : List OutWord) : bytesOf (xs ++ ys) = bytesOf xs ++ bytesOf ys := by
  simp [bytesOf]

@[simp] theorem bytesOf_map_byteWord (B : List Byte) : bytesOf (B.map byteWord) = B := by
  simp [bytesOf, List.filter_map, Function.comp_def, byteWord_fields]

@[simp] theorem bytesOf_doneWord (status : Byte) : bytesOf [doneWord status] = [] := by
  simp [bytesOf, doneWord_fields]

/-- At any other depth `pack` fails: R100. -/
theorem pack_of_illegal {d : Nat} (h : ¬ (d = 1 ∨ d = 2)) (P : List Nat) : pack P d = .error .invalidBitDepth := by
  simp [pack, h]

/-- A request that packs emits its bytes and DONE(0): R112. -/
theorem requestOutput_of_ok {d : Byte} {P B : List Byte} (h : pack (P.map BitVec.toNat) d.toNat = .ok B) :
    requestOutput d P = B.map byteWord ++ [doneWord statusSuccess] := by
  simp [requestOutput, h]

/-- A request that fails emits its DONE alone: R112. -/
theorem requestOutput_of_error {d : Byte} {P : List Byte} {e : Exc}
    (h : pack (P.map BitVec.toNat) d.toNat = .error e) : requestOutput d P = [doneWord e.code] := by
  simp [requestOutput, h]

/-- Settles O37: a DONE word carries no byte, and each BYTE word its own. -/
theorem byteWordsOfARequestAreItsPackedBytes : Obligations.ByteWordsOfARequestAreItsPackedBytes := by
  intro d P
  refine ⟨fun B hpack => ?_, fun hone htwo => ?_⟩
  · simp [requestOutput_of_ok hpack]
  · have hdepth : ¬ (d.toNat = 1 ∨ d.toNat = 2) := by bv_omega
    simp [requestOutput_of_error (pack_of_illegal hdepth _)]

end Sys2Proof.Machine
end

section
/-! The words of 30_encoding.md: commands and their words (R60, R61), the words of a textual line (R69, R70), the two
output words (R67) and what each command emits (R68). -/

namespace Sys2Proof.Machine

/-! ### Commands and their words: R60, R61 -/

/-- Decoding undoes encoding, on every command: R61. The word carries the command's fields, and its opcode passes the
tests of the decoder up to its own row. -/
theorem decode_encode (i : Instr) : decode (encode i) = i := by
  obtain ⟨hop, harg⟩ := encode_fields i
  rw [decode, hop, harg]
  cases i <;> rfl

/-- Settles O1: `decode_encode` over the commands, `encode_decode` over the words. -/
theorem decodeAndEncodeAgree : Obligations.DecodeAndEncodeAgree :=
  ⟨decode_encode, encode_decode⟩

/-- A word with the two fields of a command decodes to that command: R60. -/
theorem decode_of_fields {w : CmdWord} {i : Instr} (hop : opField w = i.opcode) (harg : argField w = i.arg) :
    decode w = i := by
  have hword : w = encode i := by rw [encode, ← hop, ← harg, opField_append_argField]
  rw [hword, decode_encode]

/-- The mask 0x300 keeps the opcode field: R61. -/
theorem opField_and_mask (w : CmdWord) : opField (w &&& 0x300#10) = opField w := by
  rw [opField, BitVec.extractLsb'_and]
  exact BitVec.and_allOnes

/-- The `match` value of a row carries the row's opcode: R61. -/
theorem opField_tableMatch (i : Instr) : opField (Laws.EncodeMatchesTable.tableMatch i) = i.opcode := by
  cases i <;> simp [opField, Laws.EncodeMatchesTable.tableMatch, Instr.opcode]

/-- A word that matches the row of a command, and carries its operand, decodes to it: R61. -/
theorem decode_of_match {w : CmdWord} {i : Instr} (hmatch : w &&& 0x300#10 = Laws.EncodeMatchesTable.tableMatch i)
    (harg : w.setWidth 8 = i.arg) : decode w = i :=
  decode_of_fields (by rw [← opField_and_mask, hmatch, opField_tableMatch])
    (BitVec.setWidth_eq_extractLsb' (by decide) |>.symm.trans harg)

/-- Settles O2: each row by `decode_of_match`. -/
theorem decodeFollowsTheOpcodeMap : Obligations.DecodeFollowsTheOpcodeMap := fun _ =>
  ⟨fun hpix => decode_of_match hpix rfl, fun hstart => decode_of_match hstart rfl,
    fun hend => decode_of_match hend rfl, fun hrsv => decode_of_match hrsv rfl⟩

/-! ### The words of a textual line: R69, R70 -/

/-- The word of a command as a number, its operand written as a number in 0 to 255: R69. -/
theorem encode_eq_ofNat {i : Instr} {n : Nat} (harg : i.arg = BitVec.ofNat 8 n) (hn : n ≤ 255) :
    encode i = BitVec.ofNat 10 (i.opcode.toNat <<< 8 ||| n) := by
  have hbyte : i.arg.toNat = n := by rw [harg, BitVec.toNat_ofNat, Nat.mod_eq_of_lt (by omega)]
  rw [encode, ← hbyte, ← BitVec.toNat_append, BitVec.ofNat_toNat, BitVec.setWidth_eq]

theorem operandOk_iff {n : Nat} : operandOk n = true ↔ n ≤ 255 := decide_eq_true_iff

theorem pack_wf_iff {d : Nat} {ps : List Nat} : (Line.pack d ps).wf = true ↔ d ≤ 255 ∧ ∀ p ∈ ps, p ≤ 255 := by
  simp [Line.wf, operandOk_iff]

/-- A well-formed line stands for the words of its commands: R69. -/
theorem assembleLine_of_wf {l : Line} (h : l.wf = true) : assembleLine l = some (l.instrs.map encode) := if_pos h

/-- A line with an operand out of range is an assembly error: R69. -/
theorem assembleLine_of_not_wf {l : Line} (h : ¬ l.wf = true) : assembleLine l = none := if_neg h

/-- A line of one command assembles to the number of its opcode and its operand: R69. -/
theorem assembleLine_of_operand {l : Line} {i : Instr} {n : Nat} (hn : n ≤ 255) (hwf : l.wf = operandOk n)
    (hinstrs : l.instrs = [i]) (harg : i.arg = BitVec.ofNat 8 n) :
    assembleLine l = some [BitVec.ofNat 10 (i.opcode.toNat <<< 8 ||| n)] := by
  rw [assembleLine_of_wf (hwf.trans (operandOk_iff.2 hn)), hinstrs, List.map_singleton, encode_eq_ofNat harg hn]

/-- An operand above 255 is an assembly error: R69. -/
theorem assembleLine_of_operand_above {l : Line} {n : Nat} (hn : 255 < n) (hwf : l.wf = operandOk n) :
    assembleLine l = none :=
  assembleLine_of_not_wf (by rw [hwf, operandOk_iff]; omega)

/-- PACK assembles to its START, its pixels in order and the canonical END: R70. -/
theorem assembleLine_pack {d : Nat} {ps : List Nat} (hd : d ≤ 255) (hps : ∀ p ∈ ps, p ≤ 255) :
    assembleLine (.pack d ps) =
      some (BitVec.ofNat 10 (0x100 ||| d) :: ps.map (fun p => BitVec.ofNat 10 p) ++ [0x200#10]) := by
  have hstart : encode (.start (BitVec.ofNat 8 d)) = BitVec.ofNat 10 (0x100 ||| d) := encode_eq_ofNat rfl hd
  have hpix : ∀ p ∈ ps, encode (.pix (BitVec.ofNat 8 p)) = BitVec.ofNat 10 p := fun p hp => by
    rw [encode_eq_ofNat rfl (hps p hp)]
    simp [Instr.opcode]
  have hend : encode (.endReq 0x00#8) = 0x200#10 := rfl
  rw [assembleLine_of_wf (pack_wf_iff.2 ⟨hd, hps⟩)]
  simpa [Line.instrs, hstart, hend] using hpix

/-- Settles O5: the lines of one command by `assembleLine_of_operand`, PACK by `assembleLine_pack`, and the errors by
the range check. -/
theorem linesAssembleToTheirWords : Obligations.LinesAssembleToTheirWords := by
  refine ⟨fun n hn => ⟨?pix, ?start, ?endReq, ?rsv⟩, rfl, fun n hn => ?above,
    fun d ps => ⟨fun ⟨hd, hps⟩ => assembleLine_pack hd hps, fun hbad => ?packAbove⟩⟩
  case pix => exact assembleLine_of_operand (i := .pix _) hn rfl rfl rfl
  case start => exact assembleLine_of_operand (i := .start _) hn rfl rfl rfl
  case endReq => exact assembleLine_of_operand (i := .endReq _) hn rfl rfl rfl
  case rsv => exact assembleLine_of_operand (i := .rsv _) hn rfl rfl rfl
  case above =>
    exact ⟨assembleLine_of_operand_above hn rfl, assembleLine_of_operand_above hn rfl,
      assembleLine_of_operand_above hn rfl, assembleLine_of_operand_above hn rfl⟩
  case packAbove =>
    refine assembleLine_of_not_wf fun hwf => ?_
    obtain ⟨hd, hps⟩ := pack_wf_iff.1 hwf
    obtain hbig | ⟨p, hp, hbig⟩ := hbad
    · omega
    · exact absurd (hps p hp) (by omega)

/-! ### The two output words: R67 -/

/-- `BYTE(b)` is the number `b`. -/
theorem byteWord_toNat (b : Byte) : (byteWord b).toNat = b.toNat := by
  rw [byteWord, BitVec.toNat_append]
  exact Nat.zero_or _

/-- `DONE(s)` is the number `0x100 + s`: its kind is bit 8, above the data. -/
theorem doneWord_toNat (s : Byte) : (doneWord s).toNat = 0x100 + s.toNat := by
  rw [doneWord, BitVec.toNat_append, ← Nat.shiftLeft_add_eq_or_of_lt s.isLt]
  rfl

/-- Settles O19: the numbers above, and the fields of the two words. -/
theorem outputWordsHaveTheirNumbers : Obligations.OutputWordsHaveTheirNumbers := by
  intro b
  obtain ⟨hbyteKind, hbyteData⟩ := byteWord_fields b
  obtain ⟨hdoneKind, hdoneData⟩ := doneWord_fields b
  exact ⟨byteWord_toNat b, doneWord_toNat b, hbyteKind, hdoneKind, hbyteData, hdoneData⟩

/-! ### What a command emits: R68, R90, R95 -/

@[simp] theorem isDone_byteWord (b : Byte) : isDone (byteWord b) = false := (byteWord_fields b).1

@[simp] theorem isDone_doneWord (s : Byte) : isDone (doneWord s) = true := (doneWord_fields s).1

/-- `Emits s i ws`: in state `s` command `i` appends `ws`, one constructor for each output of R68 with what it rests
on. `emits_of_effect` ties it to `Effect`, and so to `exec`. -/
inductive Emits (s : State) : Instr → List OutWord → Prop
  /-- No output, which END inside a request never has. -/
  | nothing (i : Instr) (hopen : (∃ arg, i = .endReq arg) → ¬ (s.st = .pack ∨ s.st = .reject)) : Emits s i []
  /-- R84: PIX completes its group. -/
  | byte (p b : Byte) : Emits s (.pix p) [byteWord b]
  /-- R89: END in PACK with a short final group. -/
  | flushed (arg : Byte) (hst : s.st = .pack) (hcnt : s.cnt ≠ 0#3) :
      Emits s (.endReq arg) [byteWord s.acc, doneWord 0x00#8]
  /-- R89: END in PACK with no group open. -/
  | success (arg : Byte) (hst : s.st = .pack) (hcnt : s.cnt = 0#3) : Emits s (.endReq arg) [doneWord 0x00#8]
  /-- R89: END in REJECT. -/
  | rejected (arg : Byte) (hst : s.st = .reject) : Emits s (.endReq arg) [doneWord 0x01#8]

/-- PIX in PACK emits the byte of its group, or nothing. -/
theorem emits_placePixel (p : Byte) (s : State) :
    ∃ ws, (placePixel p s).output = s.output ++ ws ∧ Emits s (.pix p) ws := by
  obtain ⟨-, h⟩ | ⟨-, h⟩ := placePixel_cases p s <;> rw [h]
  · exact ⟨_, rfl, .byte p _⟩
  · exact ⟨[], by simp, .nothing _ (by simp)⟩

/-- END in PACK emits the short final group, if there is one, and DONE(0). -/
theorem emits_closeRequest (arg : Byte) {s : State} (hst : s.st = .pack) :
    ∃ ws, (closeRequest s).output = s.output ++ ws ∧ Emits s (.endReq arg) ws := by
  rw [closeRequest_eq]
  by_cases hcnt : s.cnt = 0#3
  · exact ⟨[doneWord 0x00#8], by simp [hcnt], .success arg hst hcnt⟩
  · exact ⟨[byteWord s.acc, doneWord 0x00#8], by simp [hcnt], .flushed arg hst hcnt⟩

/-- `Emits` says all that a command can append. -/
theorem emits_of_effect {i : Instr} {s t : State} (h : Effect s i t) :
    ∃ ws, t.output = s.output ++ ws ∧ Emits s i ws := by
  cases h with
  | pixel p hst => exact emits_placePixel p s
  | closes arg hst => exact emits_closeRequest arg hst
  | endsReject arg hst => exact ⟨_, rfl, .rejected arg hst⟩
  | faultDrops i hst => exact ⟨[], by simp, .nothing i (by simp [hst])⟩
  | endOutside arg hst => exact ⟨[], by simp, .nothing _ (by simp [hst])⟩
  | _ => exact ⟨[], by simp, .nothing _ (by simp)⟩

section
variable {s : State} {i : Instr} {ws : List OutWord}

/-- A command appends at most two words: R95. -/
theorem emits_length_le (h : Emits s i ws) : ws.length ≤ 2 := by
  cases h <;> simp

/-- Two words come from END in PACK with a short final group, and from nothing else: R95. -/
theorem emits_length_eq_two_iff (h : Emits s i ws) :
    ws.length = 2 ↔ (∃ arg, i = .endReq arg) ∧ s.st = .pack ∧ s.cnt ≠ 0#3 := by
  cases h with
  | flushed arg hst hcnt => simp [hst, hcnt]
  | success arg hst hcnt => simp [hcnt]
  | rejected arg hst => simp [hst]
  | byte p b => simp
  | nothing i hopen =>
    refine ⟨fun h => absurd h (by decide), fun ⟨hend, hst, _⟩ => ?_⟩
    exact absurd (.inl hst) (hopen hend)

/-- A DONE comes from END, last and alone of its kind, with the status of the request it closes: R68, R90. -/
theorem emits_done (h : Emits s i ws) {w : OutWord} (hw : w ∈ ws) (hdone : isDone w = true) :
    (∃ arg, i = .endReq arg) ∧ ws.getLast? = some w ∧ ws.countP isDone = 1 ∧
      ((w = doneWord 0x00#8 ∧ s.st = .pack) ∨ (w = doneWord 0x01#8 ∧ s.st = .reject)) := by
  cases h with
  | nothing i hopen => cases hw
  | byte p b =>
    obtain rfl := List.mem_singleton.1 hw
    simp at hdone
  | flushed arg hst hcnt =>
    obtain rfl | hw := List.mem_cons.1 hw
    · simp at hdone
    · obtain rfl := List.mem_singleton.1 hw
      exact ⟨⟨arg, rfl⟩, rfl, by simp, .inl ⟨rfl, hst⟩⟩
  | success arg hst hcnt =>
    obtain rfl := List.mem_singleton.1 hw
    exact ⟨⟨arg, rfl⟩, rfl, by simp, .inl ⟨rfl, hst⟩⟩
  | rejected arg hst =>
    obtain rfl := List.mem_singleton.1 hw
    exact ⟨⟨arg, rfl⟩, rfl, by simp, .inr ⟨rfl, hst⟩⟩

/-- END inside a request always reports: R90. -/
theorem emits_any_done (h : Emits s i ws) (hend : ∃ arg, i = .endReq arg) (hst : s.st = .pack ∨ s.st = .reject) :
    ws.any isDone = true := by
  cases h with
  | nothing i hopen => exact absurd hst (hopen hend)
  | byte p b => simp at hend
  | _ => simp

end

/-- Settles O22: the words of `Emits`, and one lemma about them for each clause. -/
theorem emittedWordsOfEachCommand : Obligations.EmittedWordsOfEachCommand := by
  intro i s t hexec
  obtain ⟨ws, hout, hemits⟩ := emits_of_effect (effect_of_exec hexec)
  exact ⟨ws, hout, emits_length_le hemits, emits_length_eq_two_iff hemits, fun _ => emits_done hemits,
    emits_any_done hemits⟩

end Sys2Proof.Machine
end

section
/-! The commands of 40_packer_commands.md: that the machine always goes on (R80), what each command answers in each
state (R81 to R93), the state table (R94), and two things that last for any number of steps (R91, R93). -/

namespace Sys2Proof.Machine

/-! ### A step and its word: R80 -/

/-- Settles O6: a step with a word offered by `step_of_offered`, and the word of a command decodes to it. -/
theorem stepRunsTheDecodedFrontWord : Obligations.StepRunsTheDecodedFrontWord :=
  ⟨fun _ _ _ hlow hin => step_of_offered hlow hin,
    fun _ i _ hlow hin => by rw [step_of_offered hlow hin, decode_encode]⟩

/-- A command answers a next state: R80. -/
theorem exec_total (i : Instr) (s : State) : ∃ t, exec i s = .next t := by
  obtain ⟨t, -, hrun, -⟩ := exec_appends i s [] [] []
  exact ⟨t, hrun⟩

/-- A step answers a next state, in reset, with no word offered and with one. -/
theorem step_total (s : State) : ∃ t, step s = .next t := by
  cases hlevel : s.rstLevel with
  | true => exact ⟨_, step_of_reset hlevel⟩
  | false =>
    cases hin : s.input with
    | nil => exact ⟨_, step_of_idle hlevel hin⟩
    | cons w rest =>
      rw [step_of_offered hlevel hin]
      exact exec_total _ _

/-- Settles O12: `exec_total` and `step_total`. -/
theorem everyStepAnswersANextState : Obligations.EveryStepAnswersANextState :=
  ⟨exec_total, step_total⟩

/-- Two machines with the same registers differ in their streams and `rst` alone. -/
theorem eq_of_regs_eq {s₁ s₂ : State} (hregs : s₁.regs = s₂.regs) :
    { s₁ with input := s₂.input, output := s₂.output, rst := s₂.rst } = s₂ := by
  obtain ⟨hst, hmode, hacc, hcnt⟩ := Regs.mk.inj hregs
  rw [hst, hmode, hacc, hcnt]

/-- Settles O27: the second machine is the first with other streams, on which `exec_appends` says what a command
does. -/
theorem outcomeDependsOnBlockStateAlone : Obligations.OutcomeDependsOnBlockStateAlone := by
  intro i s₁ s₂ t₁ t₂ hregs h₁ h₂
  obtain ⟨t, ws, hrun, -, -, hout, hstreams⟩ := exec_appends i s₁ s₂.input s₂.output s₂.rst
  rw [eq_of_regs_eq hregs] at hstreams
  obtain rfl : t₁ = t := Host.Outcome.next.inj (h₁.symm.trans hrun)
  obtain rfl := Host.Outcome.next.inj (h₂.symm.trans hstreams)
  exact ⟨rfl, ws, hout, rfl⟩

/-! ### What each command answers: R81 to R93 -/

/-- Whatever `Effect` allows is what `exec` answers: the converse of `effect_of_exec`. -/
theorem exec_of_effect {i : Instr} {s t : State} (h : Effect s i t) : exec i s = .next t := by
  cases h with
  | faultDrops i hst => cases i <;> simp [exec, execPix, execStart, execEndReq, execRsv, hst]
  | pixel p hst => exact exec_pix_of_pack hst p
  | rejectDropsPixel p hst | pixelOutside p hst => simp [exec, execPix, hst]
  | opens depth m hst hdepth =>
    obtain ⟨rfl, rfl⟩ | ⟨rfl, rfl⟩ := hdepth <;> simp [exec, execStart, hst]
  | illegalDepth depth hst hone htwo => simp [exec, execStart, hst, hone, htwo]
  | startInside depth hst => obtain hst | hst := hst <;> simp [exec, execStart, hst]
  | closes arg hst | endsReject arg hst | endOutside arg hst => simp [exec, execEndReq, hst]
  | reserved arg hst => cases hs : s.st <;> simp [exec, execRsv, hs] at hst ⊢

/-- A command word as a number: the opcode above the eight bits of the operand (R60). -/
theorem encode_toNat (i : Instr) : (encode i).toNat = i.opcode.toNat <<< 8 + i.arg.toNat := by
  rw [encode, BitVec.toNat_append, Nat.shiftLeft_add_eq_or_of_lt i.arg.isLt]

/-- Settles O13: the cases of START in `Effect`. -/
theorem startOpensOrRejectsARequest : Obligations.StartOpensOrRejectsARequest := fun depth _ =>
  ⟨encode_toNat (.start depth),
    fun hst hone => exec_of_effect (.opens depth _ hst (.inl ⟨hone, rfl⟩)),
    fun hst htwo => exec_of_effect (.opens depth _ hst (.inr ⟨htwo, rfl⟩)),
    fun hst hone htwo => exec_of_effect (.illegalDepth depth hst hone htwo),
    fun hst => exec_of_effect (.startInside depth hst)⟩

/-- The mapped pixel in numbers: R85, R86. -/
theorem mapPixel_eq (mode : BitVec 1) (p : Byte) :
    mapPixel mode p = if mode = 0#1 then (if p = 0#8 then 0#8 else 1#8) else p &&& 3#8 := by
  have low : ∀ q : Byte, (map2 q).setWidth 8 = q &&& 3#8 := by decide
  rw [mapPixel, low]
  by_cases hp : p = 0#8 <;> simp [map1, hp]

/-- The byte of R84 in numbers, where the slot exists. -/
theorem insertPixel_eq {mode : BitVec 1} {cnt : BitVec 3} (hslot : cnt.toNat < ppbOf mode) (acc p : Byte) :
    insertPixel mode acc cnt p =
      acc ||| ((if mode = 0#1 then (if p = 0#8 then 0#8 else 1#8) else p &&& 3#8) <<< slotShift mode cnt) := by
  rw [insertPixel_of_slotExists (decide_eq_true hslot), mapPixel_eq]

/-- Before the last slot of a group the count of R84 does not wrap. -/
theorem nextCnt_of_lt {mode : BitVec 1} {cnt : BitVec 3} (hlt : cnt.toNat < ppbOf mode - 1) :
    nextCnt cnt = cnt + 1#3 := by
  have hppb : ppbOf mode ≤ 8 := Nat.shiftRight_le 8 _
  have hlast : ppbOf mode - 1 ≤ (7#3).toNat := Nat.sub_le_sub_right hppb 1
  exact nextCnt_of_ne fun h => Nat.not_lt.2 hlast (h ▸ hlt)

/-- Settles O14: IDLE and REJECT are cases of `Effect`, and in PACK `placePixel_cases` tells the last slot of a group
from the others. -/
theorem pixPlacesThePixelOrEmitsTheByte : Obligations.PixPlacesThePixelOrEmitsTheByte := by
  intro p s
  refine ⟨(encode_toNat (.pix p)).trans (Nat.zero_add _), fun hst => exec_of_effect (.pixelOutside p hst),
    fun hst => exec_of_effect (.rejectDropsPixel p hst), ?_⟩
  rintro d ppb v acc' hst rfl rfl rfl rfl
  have hpos := ppbOf_pos s.mode
  rw [exec_pix_of_pack hst]
  obtain ⟨hlast, hplace⟩ | ⟨hne, hplace⟩ := placePixel_cases p s <;> rw [hplace]
  · rw [insertPixel_eq (by omega)]
    exact ⟨fun _ => rfl, fun hlt => absurd hlast (Nat.ne_of_lt hlt)⟩
  · refine ⟨fun hlast => absurd hlast hne, fun hlt => ?_⟩
    change s.cnt.toNat < ppbOf s.mode - 1 at hlt
    rw [insertPixel_eq (by omega), nextCnt_of_lt hlt]
    rfl

/-- Settles O15: a count past the last slot is not the last slot, so the group goes on. -/
theorem pixWithoutASlotStillRuns : Obligations.PixWithoutASlotStillRuns := by
  intro p s hst hpast
  have hpos := ppbOf_pos s.mode
  rw [exec_pix_of_pack hst]
  obtain ⟨hlast, -⟩ | ⟨-, hplace⟩ := placePixel_cases p s
  · change ppbOf s.mode ≤ s.cnt.toNat at hpast
    omega
  · exact ⟨_, _, nextCnt_of_ne, by rw [hplace]⟩

/-- END in PACK with a group open: its byte comes before the report. -/
theorem closeRequest_of_cnt_ne {s : State} (hcnt : s.cnt ≠ 0#3) :
    closeRequest s = { s with
      st := .idle, acc := 0x00#8, cnt := 0#3, output := s.output ++ [byteWord s.acc, doneWord 0x00#8] } := by
  simp [closeRequest_eq, hcnt]

/-- END in PACK with no group open reports alone. -/
theorem closeRequest_of_cnt_eq {s : State} (hcnt : s.cnt = 0#3) :
    closeRequest s = { s with
      st := .idle, acc := 0x00#8, cnt := 0#3, output := s.output ++ [doneWord 0x00#8] } := by
  simp [closeRequest_eq, hcnt]

/-- Settles O16: the cases of END in `Effect`, with `closeRequest` on an open and on an empty group. -/
theorem endFlushesAndReports : Obligations.EndFlushesAndReports := fun arg _ =>
  ⟨encode_toNat (.endReq arg),
    fun hst => exec_of_effect (.endOutside arg hst),
    fun hst hcnt => closeRequest_of_cnt_ne hcnt ▸ exec_of_effect (.closes arg hst),
    fun hst hcnt => closeRequest_of_cnt_eq hcnt ▸ exec_of_effect (.closes arg hst),
    fun hst => exec_of_effect (.endsReject arg hst)⟩

/-- Settles O17: the one case of RSV outside FAULT in `Effect`. -/
theorem reservedOpcodeRaisesProtocolError : Obligations.ReservedOpcodeRaisesProtocolError := fun arg _ =>
  ⟨encode_toNat (.rsv arg), fun hst => exec_of_effect (.reserved arg hst)⟩

/-- Settles O18: the case of FAULT in `Effect`. -/
theorem faultDropsEveryCommand : Obligations.FaultDropsEveryCommand := fun i _ hst =>
  exec_of_effect (.faultDrops i hst)

/-! ### The state table: R94 -/

/-- The row of the table that applies to `i` in `s` gives `t`. -/
def TableGives (s : State) (i : Instr) (t : State) : Prop :=
  ∃ row ∈ stateTable, row.applies s.regs i = true ∧ row.run i s = t

/-- A row applies in its state, to the commands of its opcode column, where its condition holds. -/
theorem applies_iff {row : TableRow} {r : Regs} {i : Instr} :
    row.applies r i = true ↔
      row.before = r.st ∧ (row.op = none ∨ row.op = some i.opcode) ∧ row.cond.holds r i.arg = true := by
  simp [TableRow.applies, and_assoc]

/-- The pairs of conditions by which R94 tells two rows for one state and opcode apart. -/
def exclusiveConds : List (TableCond × TableCond) :=
  [(.argIs 1#8, .argIs 2#8), (.argIs 1#8, .argIllegal), (.argIs 2#8, .argIllegal),
   (.groupGoesOn, .groupCompletes), (.cntNonzero, .cntZero)]

/-- The two conditions of such a pair never hold together. -/
theorem not_holds_of_exclusive {c c' : TableCond} (hmem : (c, c') ∈ exclusiveConds) {r : Regs} {arg : Byte}
    (hc : c.holds r arg = true) : ¬ c'.holds r arg = true := by
  simp only [exclusiveConds, List.mem_cons, Prod.mk.injEq, List.not_mem_nil, or_false] at hmem
  obtain ⟨rfl, rfl⟩ | ⟨rfl, rfl⟩ | ⟨rfl, rfl⟩ | ⟨rfl, rfl⟩ | ⟨rfl, rfl⟩ := hmem <;>
    simp only [TableCond.holds, decide_eq_true_eq] at hc ⊢
  · simp [hc]
  · simp [hc]
  · simp [hc]
  · exact Nat.ne_of_lt hc
  · exact hc

/-- The conditions of two rows of R94 for the same state and opcode exclude each other. -/
theorem stateTable_exclusive :
    ∀ row ∈ stateTable, ∀ row' ∈ stateTable, row.before = row'.before →
      (row.op = none ∨ row'.op = none ∨ row.op = row'.op) →
      row' = row ∨ (row.cond, row'.cond) ∈ exclusiveConds ∨ (row'.cond, row.cond) ∈ exclusiveConds := by
  decide

/-- At most one row of R94 applies to a command in a state. -/
theorem applies_unique {row row' : TableRow} (hrow : row ∈ stateTable) (hrow' : row' ∈ stateTable) {r : Regs}
    {i : Instr} (happ : row.applies r i = true) (happ' : row'.applies r i = true) : row' = row := by
  obtain ⟨hst, hop, hcond⟩ := applies_iff.1 happ
  obtain ⟨hst', hop', hcond'⟩ := applies_iff.1 happ'
  have hops : row.op = none ∨ row'.op = none ∨ row.op = row'.op :=
    hop.imp_right fun h => hop'.imp_right fun h' => h.trans h'.symm
  obtain rfl | hex | hex := stateTable_exclusive row hrow row' hrow' (hst.trans hst'.symm) hops
  · rfl
  · exact absurd hcond' (not_holds_of_exclusive hex hcond)
  · exact absurd hcond (not_holds_of_exclusive hex hcond')

/-- The byte the table writes is that of `insertPixel`: R85 to R87. -/
theorem tableAcc_regs {s : State} (hslot : s.cnt.toNat < ppbOf s.mode) (p : Byte) :
    tableAcc s.regs p = insertPixel s.mode s.acc s.cnt p := by
  rw [insertPixel_eq hslot, slotShift]
  obtain ⟨hmode, hd, -, hbase⟩ | ⟨hmode, hd, -, hbase⟩ := mode_cases s.mode <;> rw [hd, hbase] <;>
    simp [tableAcc, State.regs, hmode]

section
variable (before after : St) (op : Option (BitVec 2)) (cond : TableCond) (out : List TableOut) (i : Instr) (s : State)

@[simp] theorem run_nothing : (TableRow.mk before op cond after .nothing out).run i s =
    { s with st := after, output := s.output ++ out.map (TableOut.word s.regs i.arg) } := rfl

@[simp] theorem run_clear : (TableRow.mk before op cond after .clear out).run i s =
    { s with
      st := after, acc := 0x00#8, cnt := 0#3, output := s.output ++ out.map (TableOut.word s.regs i.arg) } := rfl

@[simp] theorem run_clearAtMode (m : BitVec 1) : (TableRow.mk before op cond after (.clearAtMode m) out).run i s =
    { s with
      st := after, mode := m, acc := 0x00#8, cnt := 0#3,
      output := s.output ++ out.map (TableOut.word s.regs i.arg) } := rfl

@[simp] theorem run_place : (TableRow.mk before op cond after .place out).run i s =
    { s with
      st := after, acc := tableAcc s.regs i.arg, cnt := s.cnt + 1#3,
      output := s.output ++ out.map (TableOut.word s.regs i.arg) } := rfl

end

/-- A row of the table that is the command's and whose condition holds is the one it gives. -/
theorem tableGives_of_row {s t : State} {i : Instr} {row : TableRow} (hrow : row ∈ stateTable)
    (hst : s.st = row.before) (hop : row.op = none ∨ row.op = some i.opcode)
    (hcond : row.cond.holds s.regs i.arg = true) (hrun : row.run i s = t) : TableGives s i t :=
  ⟨row, hrow, applies_iff.2 ⟨hst.symm, hop, hcond⟩, hrun⟩

/-- A row whose columns say "to FAULT, clear, no output" is the entry of ProtocolError: R142. -/
theorem tableGives_protocolError {s : State} {i : Instr} {st : St} {op : BitVec 2}
    (hrow : ⟨st, some op, .any, .fault, .clear, []⟩ ∈ stateTable) (hst : s.st = st) (hop : i.opcode = op) :
    TableGives s i (takeException .protocolError s) :=
  tableGives_of_row hrow hst (.inr (congrArg some hop.symm)) rfl
    (by simp [takeException, Exc.entry])

/-- The rows of PIX in PACK give what `placePixel` does, where the slot exists: R84. -/
theorem tableGives_placePixel {s : State} (p : Byte) (hst : s.st = .pack)
    (hle : s.cnt.toNat ≤ ppbOf s.mode - 1) : TableGives s (.pix p) (placePixel p s) := by
  have hpos := ppbOf_pos s.mode
  have hacc := tableAcc_regs (s := s) (by omega) p
  obtain ⟨hlast, hplace⟩ | ⟨hne, hplace⟩ := placePixel_cases p s <;> rw [hplace, ← hacc]
  · exact tableGives_of_row (row := ⟨.pack, some 0b00#2, .groupCompletes, .pack, .clear, [.bytePlaced]⟩) (by decide)
      hst (.inr rfl) (decide_eq_true hlast) (by rw [← hst]; rfl)
  · have hlt : s.cnt.toNat < ppbOf s.mode - 1 := by omega
    rw [nextCnt_of_lt hlt]
    exact tableGives_of_row (row := ⟨.pack, some 0b00#2, .groupGoesOn, .pack, .place, []⟩) (by decide) hst (.inr rfl)
      (decide_eq_true hlt) (by simp [Instr.arg, hst])

/-- The rows of END in PACK give what `closeRequest` does: R89. -/
theorem tableGives_closeRequest {s : State} (arg : Byte) (hst : s.st = .pack) :
    TableGives s (.endReq arg) (closeRequest s) := by
  by_cases hcnt : s.cnt = 0#3
  · rw [closeRequest_of_cnt_eq hcnt]
    exact tableGives_of_row (row := ⟨.pack, some 0b10#2, .cntZero, .idle, .clear, [.done 0x00#8]⟩) (by decide) hst
      (.inr rfl) (decide_eq_true hcnt) rfl
  · rw [closeRequest_of_cnt_ne hcnt]
    exact tableGives_of_row
      (row := ⟨.pack, some 0b10#2, .cntNonzero, .idle, .clear, [.byteAcc, .done 0x00#8]⟩) (by decide) hst
      (.inr rfl) (decide_eq_true hcnt) rfl

/-- What a command does is what its row gives, one row or pair of rows for each case of `Effect`. -/
theorem tableGives_of_effect {i : Instr} {s t : State} (h : Effect s i t)
    (hslot : s.st = .pack → s.cnt.toNat ≤ ppbOf s.mode - 1) : TableGives s i t := by
  cases h with
  | faultDrops i hst =>
    exact tableGives_of_row (row := ⟨.fault, none, .any, .fault, .nothing, []⟩) (by decide) hst (.inl rfl) rfl
      (by simp [← hst])
  | rejectDropsPixel p hst =>
    exact tableGives_of_row (row := ⟨.reject, some 0b00#2, .any, .reject, .nothing, []⟩) (by decide) hst (.inr rfl) rfl
      (by simp [← hst])
  | pixel p hst => exact tableGives_placePixel p hst (hslot hst)
  | pixelOutside p hst => exact tableGives_protocolError (op := 0b00#2) (by decide) hst rfl
  | opens depth m hst hdepth =>
    have hrow : (⟨.idle, some 0b01#2, .argIs depth, .pack, .clearAtMode m, []⟩ : TableRow) ∈ stateTable := by
      obtain ⟨rfl, rfl⟩ | ⟨rfl, rfl⟩ := hdepth <;> decide
    exact tableGives_of_row hrow hst (.inr rfl) (decide_eq_true rfl)
      (by simp [openRequest])
  | illegalDepth depth hst hone htwo =>
    exact tableGives_of_row (row := ⟨.idle, some 0b01#2, .argIllegal, .reject, .clear, []⟩) (by decide) hst (.inr rfl)
      (decide_eq_true ⟨hone, htwo⟩)
      (by simp [takeException, Exc.entry])
  | startInside depth hst =>
    obtain hst | hst := hst <;> exact tableGives_protocolError (op := 0b01#2) (by decide) hst rfl
  | closes arg hst => exact tableGives_closeRequest arg hst
  | endsReject arg hst =>
    exact tableGives_of_row (row := ⟨.reject, some 0b10#2, .any, .idle, .nothing, [.done 0x01#8]⟩) (by decide) hst
      (.inr rfl) rfl rfl
  | endOutside arg hst => exact tableGives_protocolError (op := 0b10#2) (by decide) hst rfl
  | reserved arg hst =>
    cases hs : s.st with
    | fault => exact absurd hs hst
    | idle | pack | reject => exact tableGives_protocolError (op := 0b11#2) (by decide) hs rfl

/-- Settles O32: the row is that of `tableGives_of_effect`, and no other applies by `applies_unique`. -/
theorem execIsTheStateTable : Obligations.ExecIsTheStateTable := by
  intro i s hslot
  obtain ⟨t, hexec⟩ := exec_total i s
  obtain ⟨row, hrow, happ, rfl⟩ := tableGives_of_effect (effect_of_exec hexec) hslot
  exact ⟨row, hrow, happ, fun _ hrow' happ' => applies_unique hrow hrow' happ happ', hexec⟩

/-! ### Any number of steps: R91, R93 -/

/-- A step uses one level of `rst`: log 2. -/
theorem step_rst {s t : State} (h : step s = .next t) : t.rst = s.rst.tail := by
  obtain ⟨-, rfl⟩ | ⟨-, -, rfl⟩ | ⟨w, rest, -, -, hexec⟩ := step_cases h
  · rfl
  · rfl
  · obtain ⟨-, hrst, -⟩ := commandsLeaveTheRestUnchanged _ _ _ hexec
    exact hrst

/-- A run with `rst` low answers a state, and it has whatever every step with `rst` low keeps. -/
theorem runSteps_of_kept {I : State → Prop}
    (hkeep : ∀ {s t : State}, s.rstLevel = false → I s → step s = .next t → I t)
    (k : Nat) {s : State} (hs : I s) (hlow : s.Quiet k) : ∃ t, runSteps k s = .next t ∧ I t := by
  induction k generalizing s with
  | zero => exact ⟨s, rfl, hs⟩
  | succ k ih =>
    obtain ⟨u, hstep⟩ := step_total s
    have hlow' : u.Quiet k := by
      rw [State.Quiet, step_rst hstep]
      exact quiet_tail hlow
    rw [runSteps_of_step hstep]
    exact ih (hkeep (rstLevel_of_quiet hlow) hs hstep) hlow'

/-- A request that is open at a legal depth, with nothing but pixels offered and no DONE after the words `out`. -/
structure OnlyPixels (out : List OutWord) (s : State) : Prop where
  st : s.st = .pack
  input : ∀ w ∈ s.input, ∃ p, w = encode (.pix p)
  output : ∃ ws, s.output = out ++ ws ∧ ∀ w ∈ ws, isDone w = false

/-- PIX emits no DONE: R68, R90. -/
theorem isDone_of_emits_pix {s : State} {p : Byte} {ws : List OutWord} (h : Emits s (.pix p) ws) :
    ∀ w ∈ ws, isDone w = false := by
  intro w hw
  cases hdone : isDone w with
  | false => rfl
  | true =>
    obtain ⟨⟨_, hend⟩, -⟩ := emits_done h hw hdone
    cases hend

/-- Each step takes a pixel, which stays in PACK and emits no DONE, or finds no word: R84, R91. -/
theorem onlyPixels_step {out : List OutWord} {s t : State} (hlow : s.rstLevel = false) (hs : OnlyPixels out s)
    (hstep : step s = .next t) : OnlyPixels out t := by
  obtain ⟨hst, hin, ws, hout, hws⟩ := hs
  obtain ⟨hhigh, -⟩ | ⟨-, -, rfl⟩ | ⟨w, rest, -, hfront, hexec⟩ := step_cases hstep
  · exact absurd hhigh (by simp [hlow])
  · exact ⟨hst, hin, ws, hout, hws⟩
  · rw [hfront, List.forall_mem_cons] at hin
    obtain ⟨⟨p, rfl⟩, hrest⟩ := hin
    rw [decode_encode] at hexec
    have heff := effect_of_exec hexec
    obtain ⟨-, hkeep, -⟩ := effect_pix_frame heff
    obtain ⟨ws', hout', hemits⟩ := emits_of_effect heff
    refine ⟨(hkeep (.inl hst)).trans hst, ?_, ws ++ ws', ?_, ?_⟩
    · rw [exec_input hexec]
      exact hrest
    · rw [hout', ← List.append_assoc, ← hout]
    · exact List.forall_mem_append.2 ⟨hws, isDone_of_emits_pix hemits⟩

/-- Settles O33: `OnlyPixels` holds at the start and every step with `rst` low keeps it. -/
theorem unclosedRequestNeverCompletes : Obligations.UnclosedRequestNeverCompletes := by
  intro k P s hst hin hlow
  have hpixels : ∀ w ∈ s.input, ∃ p, w = encode (.pix p) := fun w hw => by
    obtain ⟨p, -, rfl⟩ := List.mem_map.1 (hin ▸ hw)
    exact ⟨p, rfl⟩
  have hstart : OnlyPixels s.output s := ⟨hst, hpixels, [], by simp⟩
  obtain ⟨t, hrun, hend⟩ := runSteps_of_kept onlyPixels_step k hstart hlow
  exact ⟨t, hrun, hend.st, fun ⟨_, hidle⟩ => by simp [hend.st] at hidle, hend.output⟩

/-- In FAULT a step with `rst` low takes a word, if one is offered, and changes nothing else: R93. -/
theorem step_of_fault {s : State} (hst : s.st = .fault) (hlow : s.rstLevel = false) :
    step s = .next { s with input := s.input.tail, rst := s.rst.tail } := by
  cases hin : s.input with
  | nil => simp [step_of_idle hlow hin, State.nextLevel, hin]
  | cons w rest =>
    rw [step_of_offered hlow hin]
    exact exec_of_effect (.faultDrops _ hst)

/-- Settles O25: `step_of_fault` at every step, by induction on their number. -/
theorem faultAbsorbsUntilReset : Obligations.FaultAbsorbsUntilReset := by
  intro k
  induction k with
  | zero => simp
  | succ k ih =>
    intro s hst hlow
    rw [runSteps_of_step (step_of_fault hst (rstLevel_of_quiet hlow))]
    simpa using ih { s with input := s.input.tail, rst := s.rst.tail } hst (quiet_tail hlow)

end Sys2Proof.Machine
end

section
/-! The function `pack` of 41_pack_function.md as mathematics on sequences: the sum of a group and its slots (R102,
R103), the groups of a grid (R100), and the laws R104, R105 and R108 to R111. -/

namespace Sys2Proof.Machine

/-- The slot after a group counted from its first slot and from its second. -/
theorem add_length_cons (j g : Nat) (gs : List Nat) : j + (g :: gs).length = j + 1 + gs.length := by
  rw [List.length_cons]
  omega

section
variable {d : Nat} (hd : d = 1 ∨ d = 2)
include hd

/-! ### The sum of a group: R102, R103 -/

/-- The slots of a group fill the byte: R100. -/
theorem mul_ppbAt : d * ppbAt d = 8 := by
  obtain rfl | rfl := hd <;> rfl

theorem ppbAt_pos : 0 < ppbAt d := by
  obtain rfl | rfl := hd <;> decide

/-- A group of at most `ppb` pixels ends inside the byte. -/
theorem mul_le_eight {n : Nat} (hn : n ≤ ppbAt d) : d * n ≤ 8 :=
  mul_ppbAt hd ▸ Nat.mul_le_mul_left d hn

/-- A mapped pixel is at most as wide as its slot: R101. -/
theorem mapDepth_lt (p : Nat) : mapDepth d p < 2 ^ d := by
  obtain rfl | rfl := hd
  · by_cases hp : p = 0 <;> simp [mapDepth, hp]
  · exact Nat.mod_lt p (by decide)

/-- What the slots from `j` on can hold, with room to spare for those after the group. -/
theorem groupSum_add_le (G : List Nat) (j : Nat) (hfit : d * (j + G.length) ≤ 8) :
    groupSum d j G + 2 ^ (8 - d * (j + G.length)) ≤ 2 ^ (8 - d * j) := by
  induction G generalizing j with
  | nil => simp [groupSum]
  | cons g gs ih =>
    rw [add_length_cons] at hfit ⊢
    have hrest := ih (j + 1) hfit
    have hslot : d * (j + 1) ≤ 8 := (Nat.mul_le_mul_left d (Nat.le_add_right _ _)).trans hfit
    have hpow : 2 ^ (8 - d * j) = 2 ^ d * 2 ^ (8 - d * (j + 1)) := by
      rw [← Nat.pow_add]
      congr 1
      rw [Nat.mul_succ] at hslot ⊢
      omega
    calc groupSum d j (g :: gs) + 2 ^ (8 - d * (j + 1 + gs.length))
      _ ≤ mapDepth d g * 2 ^ (8 - d * (j + 1)) + 2 ^ (8 - d * (j + 1)) := by
        rw [groupSum, Nat.add_assoc]
        exact Nat.add_le_add_left hrest _
      _ = (mapDepth d g + 1) * 2 ^ (8 - d * (j + 1)) := (Nat.succ_mul _ _).symm
      _ ≤ 2 ^ d * 2 ^ (8 - d * (j + 1)) := Nat.mul_le_mul_right _ (mapDepth_lt hd g)
      _ = 2 ^ (8 - d * j) := hpow.symm

/-- The sum of a group leaves no carry past its first slot. -/
theorem groupSum_lt {G : List Nat} {j : Nat} (hfit : d * (j + G.length) ≤ 8) :
    groupSum d j G < 2 ^ (8 - d * j) :=
  Nat.lt_of_lt_of_le (Nat.lt_add_of_pos_right (Nat.two_pow_pos _)) (groupSum_add_le hd G j hfit)

/-- The byte of a group is the sum itself: R103. -/
theorem groupByte_toNat {G : List Nat} (hG : G.length ≤ ppbAt d) : (groupByte d G).toNat = groupSum d 0 G :=
  Nat.mod_eq_of_lt (groupSum_lt hd (by simpa using mul_le_eight hd hG))

end

@[simp] theorem mapDepth_zero (d : Nat) : mapDepth d 0 = 0 := by
  simp [mapDepth]

theorem groupSum_append (d : Nat) (G H : List Nat) (j : Nat) :
    groupSum d j (G ++ H) = groupSum d j G + groupSum d (j + G.length) H := by
  induction G generalizing j with
  | nil => simp [groupSum]
  | cons g gs ih => simp [groupSum, ih, Nat.add_assoc, Nat.add_comm 1]

/-- The sum of a group leaves the bits of the slots after it zero. -/
theorem pow_dvd_groupSum (d : Nat) (G : List Nat) (j : Nat) :
    2 ^ (8 - d * (j + G.length)) ∣ groupSum d j G := by
  induction G generalizing j with
  | nil => exact dvd_zero _
  | cons g gs ih =>
    rw [add_length_cons, groupSum]
    have hlow : 8 - d * (j + 1 + gs.length) ≤ 8 - d * (j + 1) :=
      Nat.sub_le_sub_left (Nat.mul_le_mul_left d (Nat.le_add_right _ _)) 8
    exact dvd_add (dvd_mul_of_dvd_right (Nat.pow_dvd_pow 2 hlow) _) (ih (j + 1))

@[simp] theorem groupSum_replicate_zero (d j z : Nat) : groupSum d j (List.replicate z 0) = 0 := by
  induction z generalizing j with
  | zero => rfl
  | succ z ih => simp [List.replicate_succ, groupSum, ih]

@[simp] theorem groupByte_append_replicate_zero (d : Nat) (G : List Nat) (z : Nat) :
    groupByte d (G ++ List.replicate z 0) = groupByte d G := by
  simp [groupByte, groupSum_append]

/-- The sum sees only the mapped pixels. -/
theorem groupSum_map {d : Nat} {f : Nat → Nat} (hf : ∀ p, mapDepth d (f p) = mapDepth d p) (G : List Nat)
    (j : Nat) : groupSum d j (G.map f) = groupSum d j G := by
  induction G generalizing j with
  | nil => rfl
  | cons g gs ih => simp [groupSum, hf, ih]

/-- Shifting a number into a byte: the bits past the byte are lost either way. -/
theorem ofNat_shiftLeft (v e : Nat) : BitVec.ofNat 8 (v <<< e) = BitVec.ofNat 8 v <<< e := by
  apply BitVec.eq_of_toNat_eq
  simp [Nat.shiftLeft_eq]

/-- One more pixel in a group is OR-ed into the next slot, since the sum so far leaves that slot zero: R103. -/
theorem groupByte_concat {d : Nat} (hd : d = 1 ∨ d = 2) {G : List Nat} (hG : G.length < ppbAt d) (p : Nat) :
    groupByte d (G ++ [p]) =
      groupByte d G ||| BitVec.ofNat 8 (mapDepth d p) <<< (8 - d * (G.length + 1)) := by
  have hfits := mul_le_eight hd (Nat.succ_le_of_lt hG)
  have hwidth : mapDepth d p <<< (8 - d * (G.length + 1)) < 2 ^ (8 - d * G.length) := by
    have h := groupSum_lt hd (G := [p]) (j := G.length) hfits
    simpa [groupSum, Nat.shiftLeft_eq] using h
  obtain ⟨q, hq⟩ : 2 ^ (8 - d * G.length) ∣ groupSum d 0 G := by simpa using pow_dvd_groupSum d G 0
  have hsum : groupSum d 0 (G ++ [p]) = groupSum d 0 G ||| mapDepth d p <<< (8 - d * (G.length + 1)) := by
    rw [groupSum_append, hq, ← Nat.two_pow_add_eq_or_of_lt hwidth]
    simp [groupSum, Nat.shiftLeft_eq]
  rw [groupByte, hsum, BitVec.ofNat_or, ofNat_shiftLeft, groupByte]

/-- The OR of the mapped pixels of a group, each in its slot: the fold of R103. -/
theorem groupByte_eq_foldl {d : Nat} (hd : d = 1 ∨ d = 2) (G : List Nat) (hG : G.length ≤ ppbAt d) :
    groupByte d G = G.zipIdx.foldl
      (fun b g => b ||| (BitVec.ofNat 8 (mapDepth d g.1) <<< ((8 - d) - d * g.2))) 0x00#8 := by
  induction G using List.reverseRecOn with
  | nil => rfl
  | append_singleton G p ih =>
    rw [List.length_append, List.length_singleton] at hG
    rw [groupByte_concat hd hG, ih (by omega), List.zipIdx_append, List.foldl_append]
    simp [Nat.mul_succ, Nat.sub_sub, Nat.add_comm]

/-- Settles O41: the sum leaves no carry, and each pixel of the group is OR-ed into its own slot. -/
theorem groupByteIsTheOrOfItsSlots : Obligations.GroupByteIsTheOrOfItsSlots := by
  refine ⟨fun d G hd hG => ⟨?_, groupByte_eq_foldl hd G hG⟩, by decide, by decide⟩
  have hlt : groupSum d 0 G < 2 ^ 8 := groupSum_lt hd (j := 0) (by simpa using mul_le_eight hd hG)
  exact Nat.le_of_lt_succ hlt

/-! ### The groups of a grid: R100, R104, R105, R109 to R111 -/

/-- Settles O38: `pack` fails at the depths that are not legal, and at no other. -/
theorem packFailsAtEveryOtherDepth : Obligations.PackFailsAtEveryOtherDepth := by
  intro P d
  rw [← not_or]
  refine ⟨fun h => pack_of_illegal h P, fun herr hd => ?_⟩
  rw [pack_of_legal hd] at herr
  cases herr

@[simp] theorem packBytes_length (d : Nat) (P : List Nat) : (packBytes d P).length = byteCount d P.length := by
  simp [packBytes]

/-- Settles O39: `pack` makes one byte for each group, and `byteCount` is the ceiling of R104. -/
theorem packLengthLaw : Obligations.PackLengthLaw := fun P =>
  ⟨⟨_, pack_of_legal (.inl rfl) P, packBytes_length 1 P⟩, ⟨_, pack_of_legal (.inr rfl) P, packBytes_length 2 P⟩⟩

/-- Settles O40: a grid with no pixel has no group. -/
theorem packOfTheEmptyGrid : Obligations.PackOfTheEmptyGrid :=
  ⟨pack_of_legal (.inl rfl) [], pack_of_legal (.inr rfl) []⟩

/-- The groups of the first of two grids, where it is that long, are groups of both together. -/
theorem groupAt_append_left {d k : Nat} {P : List Nat} (hk : (k + 1) * ppbAt d ≤ P.length) (Q : List Nat) :
    groupAt d (P ++ Q) k = groupAt d P k := by
  rw [Nat.succ_mul] at hk
  rw [groupAt, List.drop_append_of_le_length (by omega),
    List.take_append_of_le_length (by rw [List.length_drop]; omega), groupAt]

/-- After a whole number `c` of groups come the groups of the second grid. -/
theorem groupAt_append_right {d c : Nat} {P : List Nat} (hP : P.length = c * ppbAt d) (Q : List Nat) (k : Nat) :
    groupAt d (P ++ Q) (c + k) = groupAt d Q k := by
  rw [groupAt, Nat.add_mul, ← hP, List.drop_length_add_append, groupAt]

/-- Zeros after a grid are zeros after each of its groups. -/
theorem groupAt_append_replicate (d : Nat) (P : List Nat) (z k : Nat) :
    ∃ m, groupAt d (P ++ List.replicate z 0) k = groupAt d P k ++ List.replicate m 0 := by
  rw [groupAt, List.drop_append, List.take_append, List.drop_replicate, List.take_replicate]
  exact ⟨_, rfl⟩

section
variable {d : Nat} (hd : d = 1 ∨ d = 2) {P : List Nat} (hP : P.length % ppbAt d = 0)
include hd hP

/-- A whole number of groups has one byte for every `ppb` pixels. -/
theorem byteCount_mul_ppbAt : byteCount d P.length * ppbAt d = P.length := by
  obtain rfl | rfl := hd <;> simp only [byteCount, ppbAt] at hP ⊢ <;> omega

theorem byteCount_append (n : Nat) : byteCount d (P.length + n) = byteCount d P.length + byteCount d n := by
  obtain rfl | rfl := hd <;> simp only [byteCount, ppbAt] at hP ⊢ <;> omega

/-- After a whole number of groups the bytes of the next grid follow: R110. -/
theorem packBytes_append (Q : List Nat) : packBytes d (P ++ Q) = packBytes d P ++ packBytes d Q := by
  have hwhole := byteCount_mul_ppbAt hd hP
  rw [packBytes, List.length_append, byteCount_append hd hP, List.range_add, List.map_append, List.map_map]
  congr 1
  · refine List.map_congr_left fun k hk => ?_
    have hlt : k + 1 ≤ byteCount d P.length := List.mem_range.1 hk
    rw [groupAt_append_left (hwhole ▸ Nat.mul_le_mul_right _ hlt)]
  · refine List.map_congr_left fun k _ => ?_
    rw [Function.comp_apply, groupAt_append_right hwhole.symm]

end

/-- Settles O44: `packBytes_append`, and the two grids of the example. -/
theorem packOfAConcatenation : Obligations.PackOfAConcatenation := by
  refine ⟨fun P Q d hd hP => ?_, by decide, by decide⟩
  exact ⟨_, _, pack_of_legal hd P, pack_of_legal hd Q,
    by rw [pack_of_legal hd, packBytes_append hd hP]⟩

/-- The bytes see only the mapped pixels: R109. -/
theorem packBytes_map {d : Nat} {f : Nat → Nat} (hf : ∀ p, mapDepth d (f p) = mapDepth d p) (P : List Nat) :
    packBytes d (P.map f) = packBytes d P := by
  simp only [packBytes, groupByte, groupAt, List.length_map, ← List.map_drop, ← List.map_take, groupSum_map hf]

/-- Settles O43: at both depths the replacement keeps every mapped pixel. -/
theorem packSeesOnlyTheMappedPixels : Obligations.PackSeesOnlyTheMappedPixels := by
  intro P
  have hmod (p : Nat) : mapDepth 2 (p % 4) = mapDepth 2 p := Nat.mod_mod p 4
  have hnonzero (p : Nat) : mapDepth 1 (if p = 0 then 0 else 255) = mapDepth 1 p := by
    by_cases hp : p = 0 <;> simp [mapDepth, hp]
  simp only [pack_of_legal (.inl rfl), pack_of_legal (.inr rfl), packBytes_map hmod, packBytes_map hnonzero,
    and_self]

section
variable {d z : Nat} (hd : d = 1 ∨ d = 2) {P : List Nat} (hz : z < ppbAt d) (hfull : (P.length + z) % ppbAt d = 0)
include hd hz hfull

/-- The zeros that fill the last group add no group. -/
theorem byteCount_padded : byteCount d (P.length + z) = byteCount d P.length := by
  obtain rfl | rfl := hd <;> simp only [byteCount, ppbAt] at hz hfull ⊢ <;> omega

/-- The zeros that fill the last group change no byte: R111. -/
theorem packBytes_padded : packBytes d (P ++ List.replicate z 0) = packBytes d P := by
  rw [packBytes, List.length_append, List.length_replicate, byteCount_padded hd hz hfull]
  refine List.map_congr_left fun k _ => ?_
  obtain ⟨m, hgroup⟩ := groupAt_append_replicate d P z k
  rw [hgroup, groupByte_append_replicate_zero]

end

/-- A group of zeros is the byte 0x00. -/
theorem packBytes_zero_group {d : Nat} (hd : d = 1 ∨ d = 2) : packBytes d (List.replicate (ppbAt d) 0) = [0x00#8] := by
  obtain rfl | rfl := hd <;> decide

/-- Settles O45: the padding fills the last group, and the whole group after it is packed on its own. -/
theorem packOfAPaddedGrid : Obligations.PackOfAPaddedGrid := by
  intro P d z hd hz hfull
  have hpad : packBytes d (P ++ List.replicate z 0) = packBytes d P := packBytes_padded hd hz hfull
  have hwhole : (P ++ List.replicate z 0).length % ppbAt d = 0 := by
    rw [List.length_append, List.length_replicate]
    exact hfull
  have hzero : packBytes d (List.replicate (8 / d) 0) = [0x00#8] := packBytes_zero_group hd
  refine ⟨by rw [pack_of_legal hd, hpad, pack_of_legal hd], _, pack_of_legal hd P, ?_⟩
  rw [pack_of_legal hd, List.replicate_add, ← List.append_assoc, packBytes_append hd hwhole, hpad, hzero]

/-! ### Unpacking: R107, R108 -/

/-- The slot `j + i` of a sum whose first pixel is in slot `j` holds that pixel's mapped value, or 0 past the last
pixel. -/
theorem groupSum_slot {d : Nat} (hd : d = 1 ∨ d = 2) (G : List Nat) (j i : Nat) (hG : d * (j + G.length) ≤ 8)
    (hslot : d * (j + i + 1) ≤ 8) :
    groupSum d j G / 2 ^ (8 - d * (j + i + 1)) % 2 ^ d = mapDepth d (G.getD i 0) := by
  induction G generalizing j i with
  | nil => simp [groupSum]
  | cons g gs ih =>
    rw [add_length_cons] at hG
    rw [groupSum]
    cases i with
    | zero =>
      rw [Nat.add_zero, Nat.add_comm, Nat.add_mul_div_right _ _ (Nat.two_pow_pos _),
        Nat.div_eq_of_lt (groupSum_lt hd hG), Nat.zero_add, Nat.mod_eq_of_lt (mapDepth_lt hd g), List.getD_cons_zero]
    | succ i =>
      have hidx : j + (i + 1) = j + 1 + i := by omega
      rw [hidx] at hslot ⊢
      have hlater : d * (j + 1) ≤ d * (j + 1 + i) := Nat.mul_le_mul_left d (Nat.le_add_right _ i)
      have habove : 2 ^ (8 - d * (j + 1 + i + 1)) * 2 ^ d ∣ 2 ^ (8 - d * (j + 1)) := by
        rw [← Nat.pow_add]
        rw [Nat.mul_succ] at hslot ⊢
        exact Nat.pow_dvd_pow 2 (by omega)
      obtain ⟨q, hq⟩ := dvd_mul_of_dvd_right habove (mapDepth d g)
      rw [hq, Nat.mul_assoc, Nat.mul_add_div (Nat.two_pow_pos _), Nat.mul_add_mod, ih (j + 1) i hG hslot,
        List.getD_cons_succ]

/-- Reading a slot of the byte of a group, as R107 does, gives the pixel's mapped value, or 0 past the last pixel. -/
theorem groupByte_slot {d : Nat} (hd : d = 1 ∨ d = 2) {G : List Nat} {i : Nat} (hG : G.length ≤ ppbAt d)
    (hi : i < ppbAt d) :
    (groupByte d G).toNat >>> ((8 - d) - d * i) &&& (2 ^ d - 1) = mapDepth d (G.getD i 0) := by
  have hshift : (8 - d) - d * i = 8 - d * (0 + i + 1) := by rw [Nat.zero_add, Nat.mul_succ]; omega
  rw [Nat.and_two_pow_sub_one_eq_mod, Nat.shiftRight_eq_div_pow, groupByte_toNat hd hG, hshift]
  exact groupSum_slot hd G 0 i (by simpa using mul_le_eight hd hG) (by simpa using mul_le_eight hd hi)

/-- The bytes of a grid are those of its groups, in order. -/
theorem packBytes_getElem? {d : Nat} {P : List Nat} {k : Nat} (hk : k < byteCount d P.length) :
    (packBytes d P)[k]? = some (groupByte d (groupAt d P k)) := by
  simp [packBytes, hk]

theorem groupAt_length_le (d : Nat) (P : List Nat) (k : Nat) : (groupAt d P k).length ≤ ppbAt d :=
  List.length_take_le _ _

/-- Pixel `i` of a grid is pixel `i mod ppb` of its group. -/
theorem groupAt_getD {d : Nat} (hd : d = 1 ∨ d = 2) (P : List Nat) (i : Nat) :
    (groupAt d P (i / ppbAt d)).getD (i % ppbAt d) 0 = P.getD i 0 := by
  rw [List.getD_eq_getElem?_getD, groupAt, List.getElem?_take_of_lt (Nat.mod_lt i (ppbAt_pos hd)), List.getElem?_drop,
    Nat.div_add_mod', List.getD_eq_getElem?_getD]

/-- Unpacking a pixel index gives the pixel's mapped value, or 0 past the last pixel: R108. -/
theorem unpack_packBytes {d : Nat} (hd : d = 1 ∨ d = 2) {P : List Nat} {i : Nat}
    (hi : i < byteCount d P.length * ppbAt d) : unpack (packBytes d P) d i = some (mapDepth d (P.getD i 0)) := by
  rw [unpack_of_legal hd, packBytes_getElem? (Nat.div_lt_of_lt_mul (Nat.mul_comm _ _ ▸ hi)), Option.map_some,
    groupByte_slot hd (groupAt_length_le d P _) (Nat.mod_lt i (ppbAt_pos hd)), groupAt_getD hd]

/-- Every pixel has a byte: R100. -/
theorem length_le_byteCount_mul {d : Nat} (hd : d = 1 ∨ d = 2) (n : Nat) : n ≤ byteCount d n * ppbAt d := by
  obtain rfl | rfl := hd <;> simp only [byteCount, ppbAt] <;> omega

/-- Settles O42: `unpack_packBytes` at a pixel of the grid and past the last one. -/
theorem unpackRecoversTheMappedPixels : Obligations.UnpackRecoversTheMappedPixels := by
  intro P d B hd hpack
  obtain rfl : packBytes d P = B := Except.ok.inj ((pack_of_legal hd P).symm.trans hpack)
  refine ⟨fun i p hp => ?_, fun i hpast hi => ?_⟩
  · obtain ⟨hlt, -⟩ := List.getElem?_eq_some_iff.1 hp
    rw [unpack_packBytes hd (Nat.lt_of_lt_of_le hlt (length_le_byteCount_mul hd _)), List.getD_eq_getElem?_getD, hp,
      Option.getD_some]
  · rw [packBytes_length] at hi
    rw [unpack_packBytes hd hi, List.getD_eq_default _ _ hpast, mapDepth_zero]

end Sys2Proof.Machine
end

section
/-! Requests on the machine: 41_pack_function.md R112 in the functional view of 00_scope.md R16, with the registers
along an open request, and then on the machine for one request after another. -/

namespace Sys2Proof.Machine

/-! ### Runs of the functional view -/

/-- The functional view answers what `Effect` says of the machine with empty streams. -/
theorem stepS_of_effect {i : Instr} {r : Regs} {t : State} (h : Effect r.toState i t) :
    stepS r (encode i) = (t.regs, t.output) := by
  rw [stepS, decode_encode, exec_of_effect h]

/-- A run over two lists of words is one run after the other. -/
theorem runS_append (r : Regs) (us ws : List CmdWord) :
    runS r (us ++ ws) =
      ((runS (runS r us).1 ws).1, (runS r us).2 ++ (runS (runS r us).1 ws).2) := by
  induction us generalizing r with
  | nil => rfl
  | cons u us ih => simp [runS, ih]

theorem runS_singleton (r : Regs) (w : CmdWord) : runS r [w] = stepS r w := by
  simp [runS]

/-- The words of a row of pixels: R70. -/
def pixelWords (P : List Byte) : List CmdWord := P.map fun p => encode (.pix p)

theorem pixelWords_concat (P : List Byte) (p : Byte) : pixelWords (P ++ [p]) = pixelWords P ++ [encode (.pix p)] := by
  simp [pixelWords]

theorem requestWords_eq (d : Byte) (P : List Byte) :
    requestWords d P = (encode (.start d) :: pixelWords P) ++ [encode (.endReq 0x00#8)] := rfl

/-! ### The bytes of whole groups and of the group after them: R100 -/

theorem packBytes_nil {d : Nat} (hd : d = 1 ∨ d = 2) : packBytes d [] = [] := by
  obtain rfl | rfl := hd <;> rfl

/-- A grid of one group has the byte of that group. -/
theorem packBytes_group {d : Nat} (hd : d = 1 ∨ d = 2) {G : List Nat} (hne : G ≠ []) (hG : G.length ≤ ppbAt d) :
    packBytes d G = [groupByte d G] := by
  have hcount : byteCount d G.length = 1 := by
    have hpos := List.length_pos_iff.2 hne
    obtain rfl | rfl := hd <;> simp only [byteCount, ppbAt] at hG ⊢ <;> omega
  have hgroup : groupAt d G 0 = G := by simp [groupAt, List.take_of_length_le hG]
  simp [packBytes, hcount, hgroup]

/-- Both depths of R22 are legal. -/
theorem depthOf_legal (mode : BitVec 1) : depthOf mode = 1 ∨ depthOf mode = 2 := by
  revert mode; decide

/-- `ppb` of R22 is `ppb` of R100. -/
theorem ppbAt_depthOf (mode : BitVec 1) : ppbAt (depthOf mode) = ppbOf mode := by
  revert mode; decide

/-- The bytes of a grid of pixels at the depth of `mode`. -/
def packedAt (mode : BitVec 1) (P : List Byte) : List Byte := packBytes (depthOf mode) (P.map BitVec.toNat)

/-- The byte of a group of pixels at the depth of `mode`. -/
def groupByteAt (mode : BitVec 1) (G : List Byte) : Byte := groupByte (depthOf mode) (G.map BitVec.toNat)

@[simp] theorem packedAt_nil (mode : BitVec 1) : packedAt mode [] = [] := packBytes_nil (depthOf_legal mode)

section
variable {mode : BitVec 1} {W : List Byte} (hW : W.length % ppbOf mode = 0)
include hW

/-- After whole groups come the bytes of the pixels after them. -/
theorem packedAt_append (R : List Byte) : packedAt mode (W ++ R) = packedAt mode W ++ packedAt mode R := by
  rw [← ppbAt_depthOf, ← List.length_map BitVec.toNat] at hW
  rw [packedAt, List.map_append, packBytes_append (depthOf_legal mode) hW, packedAt, packedAt]

/-- After whole groups comes the byte of the group after them. -/
theorem packedAt_append_group {G : List Byte} (hne : G ≠ []) (hG : G.length ≤ ppbOf mode) :
    packedAt mode (W ++ G) = packedAt mode W ++ [groupByteAt mode G] := by
  rw [← ppbAt_depthOf, ← List.length_map BitVec.toNat] at hG
  rw [packedAt_append hW, packedAt, packedAt, packBytes_group (depthOf_legal mode) (by simpa using hne) hG, groupByteAt]

/-- Whole groups have one byte for every `ppb` pixels. -/
theorem packedAt_length : (packedAt mode W).length = W.length / ppbOf mode := by
  rw [← ppbAt_depthOf, ← List.length_map BitVec.toNat] at hW
  have hbytes := byteCount_mul_ppbAt (depthOf_legal mode) hW
  rw [packedAt, packBytes_length, ← ppbAt_depthOf, ← List.length_map BitVec.toNat]
  exact Nat.eq_div_of_mul_eq_left (ppbAt_pos (depthOf_legal mode)).ne' hbytes

end

/-! ### One command of an open request: R84, R89 -/

/-- The registers while a request is open in `mode` and the pixels `G` of a group are placed and not yet emitted: the
loop invariant of R112. -/
def pendingRegs (mode : BitVec 1) (G : List Byte) : Regs :=
  { st := .pack, mode := mode, acc := groupByteAt mode G, cnt := BitVec.ofNat 3 G.length }

/-- The registers between requests. -/
def idleRegs (mode : BitVec 1) : Regs := { st := .idle, mode := mode, acc := 0x00#8, cnt := 0#3 }

/-- The mapped pixel of R85 and R86 is that of R101. -/
theorem mapPixel_eq_mapDepth (mode : BitVec 1) (p : Byte) :
    mapPixel mode p = BitVec.ofNat 8 (mapDepth (depthOf mode) p.toNat) := by
  revert mode p; decide

section
variable {mode : BitVec 1} {G : List Byte} (hG : G.length < ppbOf mode)
include hG

/-- The count of a group in progress does not wrap. -/
theorem pendingRegs_cnt_toNat : (pendingRegs mode G).cnt.toNat = G.length :=
  Nat.mod_eq_of_lt (Nat.lt_of_lt_of_le hG (Nat.shiftRight_le 8 _))

/-- The byte of R84 for one more pixel is the byte of R102 for the longer group. -/
theorem insertPixel_pendingRegs (p : Byte) :
    insertPixel mode (groupByteAt mode G) (pendingRegs mode G).cnt p = groupByteAt mode (G ++ [p]) := by
  have hcnt := pendingRegs_cnt_toNat hG
  have hslot : slotExists mode (pendingRegs mode G).cnt = true := decide_eq_true (by rwa [hcnt])
  have hgroup : (G.map BitVec.toNat).length < ppbAt (depthOf mode) := by
    rwa [List.length_map, ppbAt_depthOf]
  rw [insertPixel_of_slotExists hslot, slotShift_eq, hcnt, mapPixel_eq_mapDepth, groupByteAt, groupByteAt,
    List.map_append, List.map_singleton, groupByte_concat (depthOf_legal mode) hgroup, List.length_map]

/-- END with a group in progress flushes it: R89. -/
theorem stepS_end_flushes (hne : G ≠ []) (arg : Byte) :
    stepS (pendingRegs mode G) (encode (.endReq arg)) =
      (idleRegs mode, [byteWord (groupByteAt mode G), doneWord 0x00#8]) := by
  have hcnt : (pendingRegs mode G).cnt ≠ 0#3 := fun hzero =>
    hne (List.length_eq_zero_iff.1 ((pendingRegs_cnt_toNat hG).symm.trans (congrArg BitVec.toNat hzero)))
  rw [stepS_of_effect (.closes arg rfl), closeRequest_of_cnt_ne hcnt]
  rfl

end

/-- A pixel that completes its group emits the group's byte: R84. -/
theorem stepS_pixel_completes {mode : BitVec 1} {G : List Byte} (hlast : G.length + 1 = ppbOf mode) (p : Byte) :
    stepS (pendingRegs mode G) (encode (.pix p)) =
      (pendingRegs mode [], [byteWord (groupByteAt mode (G ++ [p]))]) := by
  have hG : G.length < ppbOf mode := by omega
  have hcnt := pendingRegs_cnt_toNat hG
  rw [stepS_of_effect (.pixel p rfl), ← insertPixel_pendingRegs hG]
  obtain ⟨-, hplace⟩ | ⟨hne, -⟩ := placePixel_cases p (pendingRegs mode G).toState
  · rw [hplace]
    rfl
  · change (pendingRegs mode G).cnt.toNat ≠ ppbOf mode - 1 at hne
    omega

/-- A pixel that does not complete its group is placed in it: R84. -/
theorem stepS_pixel_goes_on {mode : BitVec 1} {G : List Byte} (hlt : G.length + 1 < ppbOf mode) (p : Byte) :
    stepS (pendingRegs mode G) (encode (.pix p)) = (pendingRegs mode (G ++ [p]), []) := by
  have hG : G.length < ppbOf mode := by omega
  have hcnt := pendingRegs_cnt_toNat hG
  have hnext : nextCnt (pendingRegs mode G).cnt = BitVec.ofNat 3 (G ++ [p]).length := by
    rw [nextCnt_of_lt (mode := mode) (by omega), List.length_append, BitVec.ofNat_add]
    rfl
  rw [stepS_of_effect (.pixel p rfl), pendingRegs.eq_def mode (G ++ [p]), ← hnext, ← insertPixel_pendingRegs hG]
  obtain ⟨hlast, -⟩ | ⟨-, hplace⟩ := placePixel_cases p (pendingRegs mode G).toState
  · change (pendingRegs mode G).cnt.toNat = ppbOf mode - 1 at hlast
    omega
  · rw [hplace]
    rfl

/-- END with no group in progress reports alone: R89. -/
theorem stepS_end_reports (mode : BitVec 1) (arg : Byte) :
    stepS (pendingRegs mode []) (encode (.endReq arg)) = (idleRegs mode, [doneWord 0x00#8]) := by
  rw [stepS_of_effect (.closes arg rfl), closeRequest_of_cnt_eq rfl]
  rfl

/-! ### A request with a legal depth: R112 -/

/-- Over the pixels `Q` of an open request the bytes of its whole groups `W` come out, and the pixels `G` after them
are pending. -/
theorem runS_pixelWords (mode : BitVec 1) (Q : List Byte) :
    ∃ W G, Q = W ++ G ∧ W.length % ppbOf mode = 0 ∧ G.length < ppbOf mode ∧
      runS (pendingRegs mode []) (pixelWords Q) = (pendingRegs mode G, (packedAt mode W).map byteWord) := by
  induction Q using List.reverseRecOn with
  | nil => exact ⟨[], [], rfl, rfl, ppbOf_pos mode, by simp [pixelWords, runS]⟩
  | append_singleton Q p ih =>
    obtain ⟨W, G, rfl, hwhole, hshort, hrun⟩ := ih
    rw [pixelWords_concat, runS_append, runS_singleton, hrun]
    obtain hlast | hlt := Nat.eq_or_lt_of_le (Nat.succ_le_of_lt hshort)
    · have hgroup : (G ++ [p]).length = ppbOf mode := by simpa using hlast
      refine ⟨W ++ (G ++ [p]), [], by simp, ?_, ppbOf_pos mode, ?_⟩
      · rw [List.length_append, hgroup, Nat.add_mod_right, hwhole]
      · rw [stepS_pixel_completes hlast, packedAt_append_group hwhole (by simp) hgroup.le, List.map_append,
          List.map_singleton]
    · refine ⟨W, G ++ [p], by simp, hwhole, by simpa using hlt, ?_⟩
      rw [stepS_pixel_goes_on hlt, List.append_nil]

section
variable {d : Byte} {mode : BitVec 1} (hd : (d = 1#8 ∧ mode = 0#1) ∨ (d = 2#8 ∧ mode = 1#1))
include hd

/-- START at a legal depth opens the request with nothing pending: R81. -/
theorem stepS_start {r : Regs} (hst : r.st = .idle) : stepS r (encode (.start d)) = (pendingRegs mode [], []) := by
  rw [stepS_of_effect (.opens d mode hst hd)]
  rfl

/-- The depth of the request is that of its `mode`: R22. -/
theorem toNat_eq_depthOf : d.toNat = depthOf mode := by
  obtain ⟨rfl, rfl⟩ | ⟨rfl, rfl⟩ := hd <;> rfl

/-- The `mode` of R112 for a legal depth, `d - 1`. -/
theorem ofNat_toNat_sub_one : BitVec.ofNat 1 (d.toNat - 1) = mode := by
  obtain ⟨rfl, rfl⟩ | ⟨rfl, rfl⟩ := hd <;> rfl

theorem pack_toNat (P : List Byte) : pack (P.map BitVec.toNat) d.toNat = .ok (packedAt mode P) := by
  rw [toNat_eq_depthOf hd]
  exact pack_of_legal (depthOf_legal mode) _

/-- After START and the pixels `Q`, for `Q` the beginning of a longer grid `Q ++ R`: the loop invariant of R112. -/
theorem runS_open_request {r : Regs} (hst : r.st = .idle) (Q R : List Byte) :
    runS r (encode (.start d) :: pixelWords Q) =
      (pendingRegs mode (Q.drop (Q.length - Q.length % ppbOf mode)),
        ((packedAt mode (Q ++ R)).take (Q.length / ppbOf mode)).map byteWord) := by
  obtain ⟨W, G, rfl, hwhole, hshort, hrun⟩ := runS_pixelWords mode Q
  have hrest : (W ++ G).length % ppbOf mode = G.length := by
    rw [List.length_append, Nat.add_mod, hwhole, Nat.zero_add, Nat.mod_mod, Nat.mod_eq_of_lt hshort]
  have hcount : (W ++ G).length / ppbOf mode = (packedAt mode W).length := by
    rw [packedAt_length hwhole, List.length_append, Nat.add_div_of_dvd_right (Nat.dvd_of_mod_eq_zero hwhole),
      Nat.div_eq_of_lt hshort, Nat.add_zero]
  rw [runS, stepS_start hd hst, hrun, hrest, hcount, List.append_assoc, packedAt_append hwhole, List.take_left,
    List.length_append, Nat.add_sub_cancel, List.drop_left, List.nil_append]

/-- A request with a legal depth emits the bytes of its grid and DONE(0): R112. -/
theorem runS_request_legal {r : Regs} (hst : r.st = .idle) (P : List Byte) :
    runS r (requestWords d P) = (idleRegs mode, (packedAt mode P).map byteWord ++ [doneWord 0x00#8]) := by
  obtain ⟨W, G, rfl, hwhole, hshort, hrun⟩ := runS_pixelWords mode P
  rw [requestWords_eq, runS_append, runS_singleton, runS, stepS_start hd hst, hrun]
  by_cases hG : G = []
  · subst hG
    rw [stepS_end_reports, List.append_nil, List.nil_append]
  · rw [stepS_end_flushes hshort hG, packedAt_append_group hwhole hG hshort.le]
    simp

/-- The output of R112 for a legal depth. -/
theorem requestOutput_legal (P : List Byte) :
    requestOutput d P = (packedAt mode P).map byteWord ++ [doneWord 0x00#8] :=
  requestOutput_of_ok (pack_toNat hd P)

theorem requestMode_legal (m : BitVec 1) : requestMode d m = mode := by
  obtain ⟨rfl, rfl⟩ | ⟨rfl, rfl⟩ := hd <;> rfl

end

/-! ### A request with any other depth: R88, R112 -/

/-- The registers while a request with an illegal depth is open. -/
def rejectRegs (mode : BitVec 1) : Regs := { st := .reject, mode := mode, acc := 0x00#8, cnt := 0#3 }

/-- In REJECT the pixels are dropped: R88. -/
theorem runS_pixelWords_reject (mode : BitVec 1) (Q : List Byte) :
    runS (rejectRegs mode) (pixelWords Q) = (rejectRegs mode, []) := by
  induction Q with
  | nil => rfl
  | cons p Q ih =>
    have hdrop : stepS (rejectRegs mode) (encode (.pix p)) = (rejectRegs mode, []) :=
      stepS_of_effect (.rejectDropsPixel p rfl)
    rw [pixelWords] at ih ⊢
    simp [runS, hdrop, ih]

section
variable {d : Byte} (hone : d ≠ 1#8) (htwo : d ≠ 2#8)
include hone htwo

/-- A request with an illegal depth emits DONE(1) alone and keeps `mode`: R112. -/
theorem runS_request_illegal {r : Regs} (hst : r.st = .idle) (P : List Byte) :
    runS r (requestWords d P) = (idleRegs r.mode, [doneWord 0x01#8]) := by
  have hstart : stepS r (encode (.start d)) = (rejectRegs r.mode, []) :=
    stepS_of_effect (.illegalDepth d hst hone htwo)
  have hend : stepS (rejectRegs r.mode) (encode (.endReq 0x00#8)) = (idleRegs r.mode, [doneWord 0x01#8]) :=
    stepS_of_effect (.endsReject 0x00#8 rfl)
  rw [requestWords_eq, runS_append, runS_singleton, runS, hstart, runS_pixelWords_reject, hend]
  rfl

/-- The output of R112 for an illegal depth. -/
theorem requestOutput_illegal (P : List Byte) : requestOutput d P = [doneWord 0x01#8] :=
  requestOutput_of_error (pack_of_illegal (by bv_omega) _)

theorem requestMode_illegal (m : BitVec 1) : requestMode d m = m := by
  rw [requestMode, if_neg hone, if_neg htwo]

end

/-! ### Requests: R112 -/

/-- A depth opens a request in a `mode`, or is neither 1 nor 2: R81. -/
theorem depth_cases (d : Byte) :
    (∃ mode : BitVec 1, (d = 1#8 ∧ mode = 0#1) ∨ (d = 2#8 ∧ mode = 1#1)) ∨ (d ≠ 1#8 ∧ d ≠ 2#8) := by
  by_cases hone : d = 1#8
  · exact .inl ⟨0#1, .inl ⟨hone, rfl⟩⟩
  by_cases htwo : d = 2#8
  · exact .inl ⟨1#1, .inr ⟨htwo, rfl⟩⟩
  exact .inr ⟨hone, htwo⟩

/-- Settles O34: `runS_request_legal` and the loop invariant of `runS_open_request` at the depths at which `pack`
succeeds, and `runS_request_illegal` at the others. -/
theorem runOfARequestEmitsPack : Obligations.RunOfARequestEmitsPack := by
  intro d P r hst
  refine ⟨fun B hpack => ?_, fun hone htwo => runS_request_illegal hone htwo hst P⟩
  obtain ⟨mode, hd⟩ | ⟨hone, htwo⟩ := depth_cases d
  · obtain rfl : packedAt mode P = B := Except.ok.inj ((pack_toNat hd P).symm.trans hpack)
    rw [ofNat_toNat_sub_one hd]
    refine ⟨runS_request_legal hd hst P, fun i ppb hi hppb => ?_⟩
    have hlen : (P.take i).length = i := List.length_take_of_le hi
    have hrun := runS_open_request hd hst (P.take i) (P.drop i)
    rw [hlen, List.take_append_drop] at hrun
    obtain rfl : ppb = ppbOf mode := by rw [hppb, toNat_eq_depthOf hd, ← ppbAt_depthOf, ppbAt]
    have hpending : ((P.take i).drop (i - i % ppbOf mode)).length = i % ppbOf mode := by
      rw [List.length_drop, hlen, Nat.sub_sub_self (Nat.mod_le _ _)]
    rw [pendingRegs, hpending] at hrun
    rw [toNat_eq_depthOf hd]
    exact hrun
  · rw [pack_of_illegal (by bv_omega)] at hpack
    cases hpack

/-- A request run from IDLE emits its own output and ends in IDLE: R112. -/
theorem runS_request {r : Regs} (hst : r.st = .idle) (d : Byte) (P : List Byte) :
    runS r (requestWords d P) = (idleRegs (requestMode d r.mode), requestOutput d P) := by
  obtain ⟨mode, hd⟩ | ⟨hone, htwo⟩ := depth_cases d
  · rw [runS_request_legal hd hst, requestMode_legal hd, requestOutput_legal hd]
  · rw [runS_request_illegal hone htwo hst, requestMode_illegal hone htwo, requestOutput_illegal hone htwo]

/-- Requests one after another, from IDLE with nothing pending: R30, R90, R112. -/
theorem runS_requests (reqs : List (Byte × List Byte)) (mode : BitVec 1) :
    runS (idleRegs mode) (reqs.flatMap fun q => requestWords q.1 q.2) =
      (idleRegs (reqs.foldl (fun m q => requestMode q.1 m) mode), reqs.flatMap fun q => requestOutput q.1 q.2) := by
  induction reqs generalizing mode with
  | nil => rfl
  | cons q reqs ih =>
    rw [List.flatMap_cons, runS_append, runS_request rfl, ih]
    rfl

theorem requestWords_length (d : Byte) (P : List Byte) : (requestWords d P).length = P.length + 2 := by
  simp [requestWords]

/-- Settles O35: the machine's run is the fold `runS`, and the invariant leaves nothing pending in IDLE. -/
theorem batchOfRequestsEmitsEachPack : Obligations.BatchOfRequestsEmitsEachPack := by
  rintro reqs rest s n hinv hst hin rfl hlow
  have hlen : (reqs.flatMap fun q => requestWords q.1 q.2).length = (reqs.map fun q => q.2.length + 2).sum := by
    simp only [List.length_flatMap, requestWords_length]
  obtain ⟨hacc, hcnt⟩ := hinv.1 (by simp [hst])
  have hregs : s.regs = idleRegs s.mode := by rw [State.regs, hst, hacc, hcnt, idleRegs]
  rw [← hlen] at hlow ⊢
  rw [runSteps_eq_runS _ _ s hin hlow, hregs, runS_requests, State.advance]
  simp [idleRegs, hst, hacc, hcnt]

end Sys2Proof.Machine
end

section
/-! The exceptions of 60_exceptions.md: the step on an empty input stream (R155). -/

namespace Sys2Proof.Machine

/-- Settles O10: `step_of_idle`, whose state `nextLevel` is the old one with one level of `rst` used. -/
theorem idleWithoutAnOfferedWord : Obligations.IdleWithoutAnOfferedWord :=
  fun _ hlow hin => step_of_idle hlow hin

end Sys2Proof.Machine
end

section
/-! Reset and the host's obligations of 70_reset_and_hazards.md: which runs break the protocol (R163, R171, R172), what
a reset does (R160, R161), and a request run after one (R112). -/

namespace Sys2Proof.Machine

/-! ### The protocol: R163, R171, R172 -/

/-- Whether a request is open: R21. -/
def St.isOpen : St → Bool
  | .pack | .reject => true
  | .idle | .fault => false

/-- Outside FAULT no request is open exactly in IDLE. -/
theorem isOpen_eq_false_iff {st : St} (hst : st ≠ .fault) : st.isOpen = false ↔ st = .idle := by
  cases st <;> simp [St.isOpen] at hst ⊢

/-- One command and the protocol: it goes to FAULT where it breaks the protocol, and otherwise leaves the rest of the
sequence to be judged from the request it leaves open. -/
theorem protocol_of_effect {i : Instr} {s t : State} (h : Effect s i t) (hst : s.st ≠ .fault) (is : List Instr) :
    (t.st = .fault ∧ protocolFrom s.st.isOpen (i :: is) = false) ∨
    (t.st ≠ .fault ∧ protocolFrom s.st.isOpen (i :: is) = protocolFrom t.st.isOpen is ∧
      leavesOpen s.st.isOpen (i :: is) = leavesOpen t.st.isOpen is) := by
  cases h with
  | faultDrops i hfault => exact absurd hfault hst
  | pixelOutside p hidle | endOutside arg hidle => exact .inl ⟨rfl, by rw [hidle]; rfl⟩
  | startInside depth hopen => exact .inl ⟨rfl, by obtain hopen | hopen := hopen <;> rw [hopen] <;> rfl⟩
  | reserved arg _ => exact .inl ⟨rfl, by cases s.st.isOpen <;> rfl⟩
  | opens depth m hidle _ | illegalDepth depth hidle _ _ =>
    exact .inr ⟨by simp [Exc.entry], by rw [hidle]; rfl, rfl⟩
  | rejectDropsPixel p hopen => exact .inr ⟨hst, by rw [hopen]; rfl, rfl⟩
  | pixel p hopen => rw [placePixel_st]; exact .inr ⟨hst, by rw [hopen]; rfl, rfl⟩
  | closes arg hopen | endsReject arg hopen => exact .inr ⟨by simp [closeRequest_eq], by rw [hopen]; rfl, rfl⟩

@[simp] theorem toState_st (r : Regs) : r.toState.st = r.st := rfl

/-- A word in the functional view does what `Effect` says of its command: the converse of `stepS_of_effect`. -/
theorem effect_of_stepS (r : Regs) (w : CmdWord) : ∃ t, Effect r.toState (decode w) t ∧ (stepS r w).1 = t.regs := by
  obtain ⟨t, hexec⟩ := exec_total (decode w) r.toState
  exact ⟨t, effect_of_exec hexec, by rw [stepS, hexec]⟩

/-- FAULT lasts over any words: R93. -/
theorem runS_of_fault {r : Regs} (hst : r.st = .fault) (ws : List CmdWord) : runS r ws = (r, []) := by
  induction ws with
  | nil => rfl
  | cons w ws ih =>
    have hdrop := stepS_of_effect (.faultDrops (decode w) hst : Effect r.toState _ _)
    rw [encode_decode, toState_regs, toState_output] at hdrop
    rw [runS, hdrop, ih, List.append_nil]

/-- A run over words ends in FAULT where their commands break the protocol, and otherwise with the request open that
they leave open: R163. -/
theorem runS_protocol {r : Regs} (hst : r.st ≠ .fault) (ws : List CmdWord) :
    ((runS r ws).1.st = .fault ∧ protocolFrom r.st.isOpen (ws.map decode) = false) ∨
    ((runS r ws).1.st ≠ .fault ∧ protocolFrom r.st.isOpen (ws.map decode) = true ∧
      leavesOpen r.st.isOpen (ws.map decode) = (runS r ws).1.st.isOpen) := by
  induction ws generalizing r with
  | nil => exact .inr ⟨hst, by cases r.st.isOpen <;> rfl, rfl⟩
  | cons w ws ih =>
    obtain ⟨t, heff, hstep⟩ := effect_of_stepS r w
    rw [runS, hstep, List.map_cons]
    obtain ⟨hfault, hbreaks⟩ | ⟨hgoes, hproto, hleaves⟩ := protocol_of_effect heff hst (ws.map decode)
    · exact .inl ⟨by rw [runS_of_fault hfault]; exact hfault, hbreaks⟩
    · rw [toState_st] at hproto hleaves
      rw [hproto, hleaves]
      exact ih hgoes

/-- Settles O31: the run is the fold `runS`, of which `runS_protocol` speaks, with no request open in IDLE. -/
theorem protocolDecidesFaultAndFinish : Obligations.ProtocolDecidesFaultAndFinish := by
  intro ws rest s hst hin hlow
  have hopen : s.regs.st.isOpen = false := congrArg St.isOpen hst
  have hnot : s.regs.st ≠ .fault := by simp [State.regs, hst]
  refine ⟨_, runSteps_eq_runS ws rest s hin hlow, rfl, ?_⟩
  have hprotocol := runS_protocol hnot ws
  rw [hopen] at hprotocol
  obtain ⟨hfault, hbreaks⟩ | ⟨hgoes, hkeeps, hleaves⟩ := hprotocol
  · exact ⟨iff_of_true hfault hbreaks, fun hkeeps => by simp [hbreaks] at hkeeps⟩
  · refine ⟨iff_of_false hgoes (by simp [hkeeps]), fun _ => ?_⟩
    rw [hleaves]
    exact (isOpen_eq_false_iff hgoes).symm

/-! ### Reset: R160, R161 -/

/-- Settles O8: each field of `State.reset` by computation. -/
theorem resetStateIsS0 : Obligations.ResetStateIsS0 := ⟨rfl, rfl, rfl, rfl, rfl⟩

/-- Settles O9: `step_of_reset`, whose `applyReset` writes the four registers and whose `nextLevel` uses one level. -/
theorem resetOverridesTheOfferedWord : Obligations.ResetOverridesTheOfferedWord := fun _ => step_of_reset

/-- Settles O36: the reset step leaves the registers of IDLE with nothing pending, from which `runS_request` says what
the request does. -/
theorem resetThenRequestEmitsPack : Obligations.ResetThenRequestEmitsPack := by
  intro d P s rest levels hrst hlow hin
  have hreset : step s = .next (applyReset s.nextLevel) := step_of_reset (by simp [State.rstLevel, hrst])
  have hlow' : (applyReset s.nextLevel).Quiet (requestWords d P).length := by
    rw [requestWords_length, State.Quiet, applyReset_rst, nextLevel_rst, hrst]
    exact hlow
  have hrun := runSteps_eq_runS (requestWords d P) rest (applyReset s.nextLevel) hin hlow'
  rw [requestWords_length, runS_request rfl] at hrun
  rw [runSteps_of_step hreset, hrun, applyReset_rst, nextLevel_rst, hrst]
  rfl

end Sys2Proof.Machine
end

section
/-! What the decoder makes of words and numbers from outside the stream: words written out bit by bit from the opcode
map (R61, R69), and numbers in a field wider than a command word (log 9). -/

namespace Sys2Proof.Machine

/-! ### Words written out: R61, R69 -/

/-- Settles O3: each word has the two fields of its command, so `decode_of_fields` decodes it. -/
theorem writtenWordsDecode : Obligations.WrittenWordsDecode :=
  ⟨decode_of_fields rfl rfl, decode_of_fields rfl rfl, decode_of_fields rfl rfl, decode_of_fields rfl rfl,
    decode_of_fields rfl rfl, decode_of_fields rfl rfl, decode_of_fields rfl rfl, decode_of_fields rfl rfl⟩

/-! ### Numbers of any width: log 9 -/

theorem decodeNat_of_lt {w : Nat} (hfits : w < 2 ^ 10) : decodeNat w = .ok (decode (BitVec.ofNat 10 w)) :=
  if_pos hfits

theorem decodeNat_of_le {w : Nat} (hwide : 2 ^ 10 ≤ w) : decodeNat w = .error .wordTooWide :=
  if_neg hwide.not_gt

/-- Reading a field loses nothing of a number that fits it: what the decoder says of the number is the answer. -/
theorem decodeTableWord_of_lt {nbits w : Nat} (hfield : w < 2 ^ nbits) :
    decodeTableWord nbits w = (decodeNat w).toOption := by
  rw [decodeTableWord, Nat.mod_eq_of_lt hfield]
  cases decodeNat w <;> rfl

/-- Settles O4: a number of the field reaches `decodeNat` whole, and a number of 10 bits is one of the field. -/
theorem tableWordsReachTheDecoder : Obligations.TableWordsReachTheDecoder := by
  intro nbits w hbits
  constructor
  · intro hfits
    have hfield : w < 2 ^ nbits := hfits.trans_le (Nat.pow_le_pow_right two_pos hbits)
    rw [decodeTableWord_of_lt hfield, decodeNat_of_lt hfits]
    rfl
  · intro hwide hfield
    rw [decodeTableWord_of_lt hfield, decodeNat_of_le hwide]
    rfl

end Sys2Proof.Machine
end
